-- ==== Sys2Proof/Word.lean ====
section
/-! DEFINITION. The plain value types of the block: the generator word, the step-input word, the contents of `SEQ`, the coil
terminal.  Nothing here computes. -/

namespace Sys2Proof

/-- A generator value: 16 bits (R12, R43). -/
abbrev Word := BitVec 16

/-- A step input `IN[3:0]`: bit 3 is `rst`, bits 2..0 are `cmd` (R35). -/
abbrev StepInput := BitVec 4

/-- The contents of `SEQ` (R15, R24), a slot index being a plain number: the slots whose one-bit cell holds 1, in strictly rising order.
A slot that is not listed holds 0, so the cleared store is the empty list (log entry 5). -/
abbrev Memory := List Nat

/-- A coil terminal (R17).  It also stands for the output event `Pulse(A)` or `Pulse(B)` (R65, R69). -/
inductive Terminal where
  | A
  | B
deriving DecidableEq, Repr

end Sys2Proof
end

