-- ==== Sys2Proof/Syntax.lean ====
section
/-! DEFINITION. The commands of the block: one constructor per row of spec/opcode_table.json.  No command has an operand,
an immediate or a register field (R36), so no constructor has an argument. -/

namespace Sys2Proof

/-- A command selected by the step input (R37). -/
inductive Instr where
  /-- `1xxx`: restart (R85). -/
  | reset
  /-- `0000`: no operation (R61). -/
  | nop
  /-- `0001`: one scheduler transition (R59). -/
  | tick
  /-- `0010`: one generator draw (R50). -/
  | step
  /-- `0011`: one sequence build (R58). -/
  | build
  /-- `0100`: one actuation (R70). -/
  | pulse
  /-- `0101`: reserved (R40). -/
  | reserved0101
  /-- `0110`: reserved (R40). -/
  | reserved0110
  /-- `0111`: reserved (R40). -/
  | reserved0111
deriving DecidableEq, Repr

end Sys2Proof
end

