-- ==== Sys2Proof/Decode.lean ====
section
/-! DEFINITION. The decoder of the 4-bit step input, the encoder after it, and the same map once more as the rows of the
spec's command table (R35, R37, R41, R42). -/

namespace Sys2Proof

/-- `IN[3]`, the restart request (R35). -/
def rstBit (w : StepInput) : Bool := w.getLsbD 3

/-- `IN[2:0]`, the command code (R35). -/
def cmdField (w : StepInput) : BitVec 3 := w.extractLsb' 0 3

/-- The command a code names when `rst = 0` (R37); the codes 5, 6 and 7 are reserved (R40). -/
def decodeCmd (c : BitVec 3) : Instr :=
  match c.toNat with
  | 0 => .nop
  | 1 => .tick
  | 2 => .step
  | 3 => .build
  | 4 => .pulse
  | 5 => .reserved0101
  | 6 => .reserved0110
  | _ => .reserved0111

/-- The decoder: RESET whatever `cmd` holds when `rst = 1` (R41), else the command of the code (R37).
Total: every word of `IN4` is a row of the table. -/
def decode (w : StepInput) : Instr :=
  if rstBit w then .reset else decodeCmd (cmdField w)

/-- Why a word is no step input. -/
inductive DecodeReject where
  /-- The word does not fit the 4 bits of `IN4`: "There is no other length" (R35). -/
  | widerThanIN4 (w : Nat)
deriving DecidableEq, Repr

/-- Decoding any number presented as a word: a word wider than `IN4` is rejected by name (R35). -/
def decodeWord (w : Nat) : Except DecodeReject Instr :=
  if w < 16 then .ok (decode (BitVec.ofNat 4 w)) else .error (.widerThanIN4 w)

/-- The instruction the decoder reads from a word numbered as spec/opcode_table.json numbers it, of which only the low
`nbits` bits are given (the bits above them are 0). -/
def decodeTableWord (nbits w : Nat) : Option Instr :=
  match decodeWord (w % 2 ^ nbits) with
  | .ok i => some i
  | .error _ => none

/-- The encoder.  RESET is emitted as `8`, though any word with `IN[3] = 1` is RESET (R42). -/
def encode : Instr → StepInput
  | .reset => 0b1000#4
  | .nop => 0b0000#4
  | .tick => 0b0001#4
  | .step => 0b0010#4
  | .build => 0b0011#4
  | .pulse => 0b0100#4
  | .reserved0101 => 0b0101#4
  | .reserved0110 => 0b0110#4
  | .reserved0111 => 0b0111#4

/-- One row of the command table: a word matches when its bits under `mask` are `pat`. -/
structure OpcodeRow where
  pat : StepInput
  mask : StepInput
  instr : Instr
deriving DecidableEq, Repr

/-- The command table of R37, row by row as spec/opcode_table.json gives match and mask. -/
def opcodeRows : List OpcodeRow :=
  [ ⟨0x8#4, 0x8#4, .reset⟩,
    ⟨0x0#4, 0xF#4, .nop⟩,
    ⟨0x1#4, 0xF#4, .tick⟩,
    ⟨0x2#4, 0xF#4, .step⟩,
    ⟨0x3#4, 0xF#4, .build⟩,
    ⟨0x4#4, 0xF#4, .pulse⟩,
    ⟨0x5#4, 0xF#4, .reserved0101⟩,
    ⟨0x6#4, 0xF#4, .reserved0110⟩,
    ⟨0x7#4, 0xF#4, .reserved0111⟩ ]

/-- A row matches a word. -/
def OpcodeRow.matchesWord (row : OpcodeRow) (w : StepInput) : Bool := w &&& row.mask == row.pat

end Sys2Proof
end

