-- ==== Sys2Proof/Machine/Lfsr.lean ====
section
/-! DEFINITION. The pseudo-random generator as pure functions on 16-bit words (40_lfsr.md). -/

namespace Sys2Proof.Machine.Lfsr

/-- The feedback bit of the step function: the exclusive OR of the bits at positions 0, 2, 3 and 5 (R43, R44). -/
def feedback (s : Word) : Bool := s.getLsbD 0 ^^ s.getLsbD 2 ^^ s.getLsbD 3 ^^ s.getLsbD 5

/-- `next`: shift right by one, the feedback bit enters at bit 15 (R43). -/
def next (s : Word) : Word := (s >>> 1) ||| ((BitVec.ofBool (feedback s)).zeroExtend 16 <<< 15)

/-- The bit that `prev` puts at position 0 (R45). -/
def lostBit (t : Word) : Bool := t.getLsbD 15 ^^ t.getLsbD 1 ^^ t.getLsbD 2 ^^ t.getLsbD 4

/-- `prev`, the inverse of `next` as R45 writes it. -/
def prev (t : Word) : Word := (t <<< 1) ||| (BitVec.ofBool (lostBit t)).zeroExtend 16

/-- A draw: the value drawn AND the state left behind are both the state after the advance (R49; D7, log entry 6). -/
def draw (lfsr : Word) : Word × Word := (next lfsr, next lfsr)

end Sys2Proof.Machine.Lfsr
end

