-- ==== Sys2Proof/Config.lean ====
section
/-! DEFINITION. The elaboration parameters of the block (00_scope.md section 4) as plain data, and the one value the spec
leaves opaque.  A configuration is a field of State that no step changes, so that every statement ranges over every `N`,
every `SEED0` and every `POL0` (log entry 1). -/

namespace Sys2Proof

/-- The parameters fixed when the block is built: `N` (R5), `SEED0` (R7), `POL0` (R10).
An illegal choice can be written down: the machine refuses it (R52, R74, R93; `Machine.Legal`). -/
structure Config where
  /-- `N`, the sequence length in seconds (R5). -/
  n : Nat
  /-- `SEED0`, the generator value loaded at every restart (R7; OPEN, premise nonzero). -/
  seed0 : Word
  /-- `POL0`, the polarity after restart: `false` is 0 (R10). -/
  pol0 : Bool
deriving DecidableEq, Repr

/-- `T_ENERGIZE` (R8): "treat as an opaque external parameter".  It has no body: no proof can see a value, and no rule
depends on one (log entry 9). -/
opaque Config.tEnergize : Nat

/-- `TICK_RATE` in Hz (R9): fixed at 4 by the external timer.  The block neither makes nor measures it. -/
def Config.tickRateHz : Nat := 4

/-- The default configuration: `N = 64` (R5) and `POL0 = 0` (R10) are the spec's.
`SEED0 = 0x0001` is a DESIGN CHOICE: the spec leaves the seed OPEN (R7; log entry 2). -/
def Config.default : Config := { n := 64, seed0 := 0x0001#16, pol0 := false }

end Sys2Proof
end

