-- ==== Sys2Proof/Machine/Operands.lean ====
section
/-! DEFINITION. The values an operation uses.  No command has an operand field (R36): every value comes from the state or
from the parameters, and this file says how.  Also what makes a configuration legal (R5, R7, R93). -/

namespace Sys2Proof.Machine

/-- `S = 4N`, the number of slots (R6). -/
def slots (n : Nat) : Nat := 4 * n

/-- `MASK = 4N - 1` (R6). -/
def slotMask (n : Nat) : Nat := 4 * n - 1

/-- `CW = log2(4N)`, the width of `CNT` and of a slot index (R6, R13). -/
def counterWidth (n : Nat) : Nat := Nat.log2 (4 * n)

/-- The legal values of `N`: `2^k` for `0 ≤ k ≤ 14` (R5). -/
def legalLengths : List Nat := (List.range 15).map (fun k => 2 ^ k)

/-- The configurations this spec describes: `N` a power of two in `[1, 16384]` (R5, R52) and `SEED0` nonzero
(R7, R93). -/
abbrev Legal (cfg : Config) : Prop := cfg.n ∈ legalLengths ∧ cfg.seed0 ≠ 0#16

/-- The candidate slot of a draw: `d & (4N - 1)` (R51 step 2b, R36). -/
def candidate (n : Nat) (d : Word) : Nat := d.toNat &&& slotMask n

/-- `NB = max(1, 4N / 8)`, the number of bytes of the byte view (R26). -/
def numBytes (n : Nat) : Nat := max 1 (slots n / 8)

/-- The byte of the byte view that holds a slot (R26). -/
def byteIndex (p : Nat) : Nat := p >>> 3

/-- The bit of its byte that holds a slot, bit 0 the least significant (R26). -/
def bitIndex (p : Nat) : Nat := p &&& 7

end Sys2Proof.Machine
end

