-- ==== Sys2Proof/Machine/Memory.lean ====
section
/-! DEFINITION. The one addressed store, the bit-set `SEQ` (20_memory.md): its canonical form, its three kinds of access
(R28) and its views for the observation port (R20, R26). -/

namespace Sys2Proof.Machine

/-- The canonical form of a store of `size` one-bit cells: the slots that hold 1, strictly rising, each below `size`.
No listed slot holds what an unlisted slot holds (0), so equal stores are equal lists. -/
abbrev Memory.wf (size : Nat) (m : Memory) : Prop := m.Pairwise (· < ·) ∧ ∀ p ∈ m, p < size

/-- The bit of slot `p`; an unlisted slot holds 0. -/
def Memory.bit (m : Memory) (p : Nat) : Bool := m.contains p

/-- The store after a 1 is written to slot `p`. -/
def Memory.set : Memory → Nat → Memory
  | [], p => [p]
  | q :: rest, p => if p < q then p :: q :: rest else if p = q then q :: rest else q :: Memory.set rest p

/-- The store after a 0 is written to slot `p`. -/
def Memory.unset (m : Memory) (p : Nat) : Memory := m.filter (· != p)

/-- `MemRead(p, 1)`: the bit of slot `p`, and nothing when no such slot exists (R28, R29). -/
def Memory.read (size : Nat) (m : Memory) (p : Nat) : Option Bool :=
  if p < size then some (Memory.bit m p) else none

/-- `MemWrite(p, 1, b)`: writes one bit, and nothing when no such slot exists (R28, R29). -/
def Memory.write (size : Nat) (m : Memory) (p : Nat) (b : Bool) : Option Memory :=
  if p < size then some (if b then Memory.set m p else Memory.unset m p) else none

/-- The store after "Clear all 4N bits" (R28, R51 step 1): no slot holds 1. -/
def Memory.cleared : Memory := []

/-- `popcount(SEQ)`. -/
def Memory.popcount (m : Memory) : Nat := m.length

/-- `seq_obs`: the store as a flat vector, slot `p` at bit `p` (R20). -/
def Memory.vector (size : Nat) (m : Memory) : BitVec size :=
  m.foldr (fun p acc => acc ||| (BitVec.twoPow size p)) 0

/-- `SEQBYTE[k]`: the byte that holds slots `8k .. 8k+7`, least significant bit first; a bit past the last slot reads 0
(R26). -/
def Memory.byte (size : Nat) (m : Memory) (k : Nat) : BitVec 8 :=
  (List.range 8).foldr
    (fun j acc => if 8 * k + j < size ∧ Memory.bit m (8 * k + j) = true then acc ||| BitVec.twoPow 8 j else acc) 0

end Sys2Proof.Machine
end

