-- ==== Sys2Proof/Machine/Build.lean ====
section
/-! DEFINITION. The sequence build as a pure computation on the generator word (R51). -/

namespace Sys2Proof.Machine

/-- What a completed build leaves: the new store, the advanced generator word, and the number `D` of draws it consumed
(R54 (b)).  `draws` is a record of the run for statements; it is no state of the block (R21). -/
structure BuildResult where
  seq : Memory
  lfsr : Word
  draws : Nat
deriving DecidableEq, Repr

/-- The loop of R51 step 2, entered with `count` slots set in `seq` and `draws` draws consumed.
`fuel` bounds the draws still allowed; `none` says that the loop was still running when they were used up.
The bound is no cap of the hardware (R53): a build from a nonzero word never needs more than 65535 draws (R55), and one
from zero with `N ≥ 2` never completes under any bound (R56). -/
def buildLoop (n : Nat) : (fuel count draws : Nat) → Memory → Word → Option BuildResult
  | 0, count, draws, seq, lfsr =>
    if count < n then none else some { seq := seq, lfsr := lfsr, draws := draws }
  | fuel + 1, count, draws, seq, lfsr =>
    if count < n then
      let d := Lfsr.draw lfsr
      let c := candidate n d.1
      if Memory.bit seq c then buildLoop n fuel count (draws + 1) seq d.2
      else buildLoop n fuel (count + 1) (draws + 1) (Memory.set seq c) d.2
    else some { seq := seq, lfsr := lfsr, draws := draws }

/-- The draws within which a build from a nonzero word completes (R55). -/
def buildFuel : Nat := 65535

/-- `build` (R51): clears the store, then draws until `N` distinct slots are set.  `none` is the divergence of R56. -/
def build (n : Nat) (lfsr : Word) : Option BuildResult :=
  buildLoop n buildFuel 0 0 Memory.cleared lfsr

end Sys2Proof.Machine
end

