-- ==== Sys2Proof/Machine/Flags.lean ====
section
/-! DEFINITION. The block has no status flags and no condition codes (R19); every command's "Flags written" is none.
What stands here is its only one-bit state, the polarity flag `POL`, which is data of the actuator: the terminal it selects
and its flip. -/

namespace Sys2Proof.Machine

/-- The terminal the polarity flag selects: `POL = 0` drives A (R65). -/
def terminalOf (pol : Bool) : Terminal := if pol then .B else .A

/-- `POL <- ~POL` (R65). -/
def flipPolarity (pol : Bool) : Bool := !pol

end Sys2Proof.Machine
end

