-- ==== Sys2Proof/Machine/State.lean ====
section
/-! DEFINITION. The state of the block (10_state.md), why a step can stop, and the state after reset. -/

namespace Sys2Proof.Machine

/-- The registers and the bit-set of a block that holds values (R12 to R15). -/
structure Regs where
  /-- `LFSR`, the generator state, 16 bits (R12). -/
  lfsr : Word
  /-- `CNT`, the window counter, a `CW`-bit count in `[0, 4N)` (R13). -/
  cnt : Nat
  /-- `POL`, the polarity flag (R14). -/
  pol : Bool
  /-- `SEQ`, the sequence bit-set (R15). -/
  seq : Memory
deriving DecidableEq, Repr

/-- `PHASE` (R16). -/
inductive Phase where
  | uninit
  | idle
  | busy
deriving DecidableEq, Repr

/-- The control state together with what it leaves defined.
`uninit`: `LFSR`, `CNT`, `POL` and `SEQ` hold no value (R22).  `idle`: they hold values (R16).
`busy`: an operation is in progress, or never completes (R56); no value and no partial `SEQ` is there to be read, and only
RESET, which overwrites all of them, goes on from it (R86; log entry 4). -/
inductive Control where
  | uninit
  | idle (r : Regs)
  | busy
deriving DecidableEq, Repr

/-- The outputs: the two drive signals (R17) and the append-only history of `Pulse` events (R69). -/
structure Outputs where
  /-- `COIL_A` (R17). -/
  coilA : Bool
  /-- `COIL_B` (R17). -/
  coilB : Bool
  /-- The `Pulse(t)` events in the order emitted, oldest first (R69). -/
  history : List Terminal
deriving DecidableEq, Repr

/-- The whole machine. -/
structure State where
  /-- The elaboration parameters: no step changes them (R19). -/
  cfg : Config
  /-- `PHASE` and, when idle, `LFSR`, `CNT`, `POL` and `SEQ`. -/
  ctl : Control
  /-- `COIL_A`, `COIL_B` and the output history. -/
  out : Outputs
  /-- The step inputs the environment will present, the next one first.  They are the environment's, not storage of the
  block (R33; log entry 3). -/
  inputs : List StepInput
deriving DecidableEq, Repr

/-- The control state as `PHASE` names it (R16). -/
def State.phase (s : State) : Phase :=
  match s.ctl with
  | .uninit => .uninit
  | .idle _ => .idle
  | .busy => .busy

/-- Why the machine stops with a fault. -/
inductive Fault where
  /-- A TICK whose `CNT` is no slot of `SEQ`.  Raised by TICK only in a state outside the range of R13 ("No access can be
  out of range", R29), so no run from RESET meets it.  Safe: the model stops. -/
  | slotOutOfRange (p : Nat)
deriving DecidableEq, Repr

/-- Why the model gives a step, or a read of the observation port, no meaning. -/
inductive Refusal where
  /-- An instruction that has no meaning yet; raised by a refused arm of `exec`.  Safe. -/
  | notModelled (mnemonic : String)
  /-- A reserved step input (R40, R74): "A model must refuse them".  Raised by the three reserved commands.  Safe. -/
  | reservedInput (w : StepInput)
  /-- A step input other than RESET in `UNINIT`, or a read of a register there (R22, R87).  Raised by every assigned
  command but RESET and by the observation port.  Safe. -/
  | uninitialised
  /-- A step input other than RESET while `BUSY`: `TICK_OVERRUN` is OPEN (R90).  Raised by every assigned command but
  RESET, and by the observation port, which sees registers only at a step boundary (R31).  Safe. -/
  | busyOverrun
  /-- A configuration that is not this block (R52, R74, R93).  Raised by every assigned command, by a step without input
  and by the observation port.  Safe. -/
  | illegalConfig
  /-- A byte read of the observation port outside `[0, NB)` (R29).  Raised by the observation port.  Safe. -/
  | byteOutOfRange (k : Nat)
deriving DecidableEq, Repr

/-- The outputs of a block that has emitted nothing: both drive signals 0. -/
def Outputs.quiet : Outputs := { coilA := false, coilB := false, history := [] }

/-- The registers when RESET completes: `CNT = 0`, `POL = POL0`, and `LFSR` and `SEQ` as the build from `SEED0` leaves
them (R23 table, R85). -/
def Regs.afterRestart (cfg : Config) (b : BuildResult) : Regs :=
  { lfsr := b.lfsr, cnt := 0, pol := cfg.pol0, seq := b.seq }

/-- The control state a restart ends in; it is `busy` only where the restart's build never completes, which a nonzero
`SEED0` rules out (R55, R56). -/
def Control.afterRestart (cfg : Config) : Control :=
  match build cfg.n cfg.seed0 with
  | some b => .idle (Regs.afterRestart cfg b)
  | none => .busy

/-- The machine right after reset: the default configuration, RESET just completed (R85), nothing emitted yet and no step
input placed. -/
def State.reset : State :=
  { cfg := Config.default
    ctl := Control.afterRestart Config.default
    out := Outputs.quiet
    inputs := [] }

end Sys2Proof.Machine
end

