-- ==== Sys2Proof/Machine/Ops.lean ====
section
/-! DEFINITION. The shared operations: when a command may run, fetching the next step input, the draw, the pulse, the build
inside an operation, and the ways an operation ends.  The block raises no exception and has no trap entry or return
(R71, R77, R78); the nearest things are the return to `IDLE` and the divergence, and both stand here. -/

namespace Sys2Proof.Machine

/-- The power-up state: `UNINIT`, both drive signals 0, an empty history (R17, R22, R84, R87). -/
def State.powerUp (cfg : Config) : State :=
  { cfg := cfg, ctl := .uninit, out := Outputs.quiet, inputs := [] }

/-- The state after an operation that completed with registers `r` and outputs `o`: the block is back in `IDLE`
(R77, R84). -/
def State.toIdle (s : State) (r : Regs) (o : Outputs) : State := { s with ctl := .idle r, out := o }

/-- The state after an operation that was started and never completes: `PHASE` stays `BUSY`, no register value and no
partial `SEQ` is left, the outputs emitted before it remain (R56, R72). -/
def State.toBusy (s : State) (o : Outputs) : State := { s with ctl := .busy, out := o }

/-- An assigned command other than RESET runs only in `IDLE` (R22, R87, R90), and only on a block this spec describes
(R52, R93). -/
def whenIdle (s : State) (k : Regs → Host.Outcome State Fault Refusal) : Host.Outcome State Fault Refusal :=
  if Legal s.cfg then
    match s.ctl with
    | .uninit => .refused .uninitialised
    | .busy => .refused .busyOverrun
    | .idle r => k r
  else .refused .illegalConfig

/-- The next step input, and the state with it consumed (R75: a command is consumed by the step that presents it). -/
def fetch (s : State) : Option (StepInput × State) :=
  match s.inputs with
  | [] => none
  | w :: rest => some (w, { s with inputs := rest })

/-- A step at which the environment presents nothing (R88: "presents NOP or nothing"): every state element is retained
(R84; log entry 3). -/
def noInput (s : State) : Host.Outcome State Fault Refusal :=
  if Legal s.cfg then .next s else .refused .illegalConfig

/-- `COIL_t <- b`; the other terminal stays as it is (R65). -/
def Outputs.drive (o : Outputs) (t : Terminal) (b : Bool) : Outputs :=
  match t with
  | .A => { o with coilA := b }
  | .B => { o with coilB := b }

/-- `COIL_A <- 0; COIL_B <- 0` (R85). -/
def Outputs.release (o : Outputs) : Outputs := { o with coilA := false, coilB := false }

/-- `hold for T_ENERGIZE`: time passes and no state changes (R65, R94). -/
def Outputs.hold (o : Outputs) (_duration : Nat) : Outputs := o

/-- `emit Pulse(t)`: one event is appended to the history (R65, R69). -/
def Outputs.emit (o : Outputs) (t : Terminal) : Outputs := { o with history := o.history ++ [t] }

/-- The outputs while terminal `t` is energized, before it is released (R65). -/
def Outputs.energized (o : Outputs) (t : Terminal) : Outputs :=
  (o.drive t true).hold Config.tEnergize

/-- The outputs after one pulse on terminal `t`: asserted, held, released, then the event (R65). -/
def Outputs.pulse (o : Outputs) (t : Terminal) : Outputs :=
  ((o.energized t).drive t false).emit t

/-- `pulse()` (R65): one pulse on the terminal `POL` selects, then `POL` flips. -/
def pulse (r : Regs) (o : Outputs) : Regs × Outputs :=
  ({ r with pol := flipPolarity r.pol }, o.pulse (terminalOf r.pol))

/-- A `build` inside an operation (R51), with the registers and outputs the operation has so far: it replaces `SEQ` and
`LFSR` and the operation completes, or it never completes (R56). -/
def runBuild (s : State) (r : Regs) (o : Outputs) : Host.Outcome State Fault Refusal :=
  match build s.cfg.n r.lfsr with
  | some b => .next (s.toIdle { r with lfsr := b.lfsr, seq := b.seq } o)
  | none => .next (s.toBusy o)

end Sys2Proof.Machine
end

