-- ==== Sys2Proof/Machine/Actuator.lean ====
section
/-! DEFINITION. The meaning of PULSE (43_actuator.md section 2). -/

namespace Sys2Proof.Machine

/-- PULSE (R70): runs `pulse` once; `LFSR`, `SEQ` and `CNT` are unchanged. -/
def execPulse (s : State) : Host.Outcome State Fault Refusal :=
  whenIdle s fun r => .next (s.toIdle (pulse r s.out).1 (pulse r s.out).2)

end Sys2Proof.Machine
end

