-- ==== Sys2Proof/Machine/Builder.lean ====
section
/-! DEFINITION. The meaning of BUILD (41_builder.md section 3). -/

namespace Sys2Proof.Machine

/-- BUILD (R58): runs `build` once; `CNT`, `POL` and the outputs are unchanged. -/
def execBuild (s : State) : Host.Outcome State Fault Refusal :=
  whenIdle s fun r => runBuild s r s.out

end Sys2Proof.Machine
end

