-- ==== Sys2Proof/Machine/Generator.lean ====
section
/-! DEFINITION. The meaning of STEP (40_lfsr.md section 3). -/

namespace Sys2Proof.Machine

/-- STEP (R50): one draw and nothing else. -/
def execStep (s : State) : Host.Outcome State Fault Refusal :=
  whenIdle s fun r => .next (s.toIdle { r with lfsr := (Lfsr.draw r.lfsr).2 } s.out)

end Sys2Proof.Machine
end

