-- ==== Sys2Proof/Machine/Reserved.lean ====
section
/-! DEFINITION. The three reserved step inputs (30_encoding.md section 4): "A model must refuse them, not treat them as
NOP" (R40). -/

namespace Sys2Proof.Machine

/-- Refusing a reserved input by its own word (R40, R74). -/
def refuseReserved (i : Instr) (_s : State) : Host.Outcome State Fault Refusal :=
  .refused (.reservedInput (encode i))

/-- `0101` (R40). -/
def execReserved0101 (s : State) : Host.Outcome State Fault Refusal := refuseReserved .reserved0101 s

/-- `0110` (R40). -/
def execReserved0110 (s : State) : Host.Outcome State Fault Refusal := refuseReserved .reserved0110 s

/-- `0111` (R40). -/
def execReserved0111 (s : State) : Host.Outcome State Fault Refusal := refuseReserved .reserved0111 s

end Sys2Proof.Machine
end

