-- ==== Sys2Proof/Machine/Restart.lean ====
section
/-! DEFINITION. The meaning of RESET (70_reset_and_hazards.md section 1). -/

namespace Sys2Proof.Machine

/-- The registers when a restart enters its build: reseeded, counter 0, initial polarity (R85).  `SEQ` is cleared by the
build's own first step, so no old content is carried. -/
def restartRegs (cfg : Config) : Regs :=
  { lfsr := cfg.seed0, cnt := 0, pol := cfg.pol0, seq := Memory.cleared }

/-- RESET (R85): accepted in every phase, it releases both terminals, restarts the registers, builds, and keeps the
history (R69).  In `BUSY` it aborts the operation in progress, which leaves no event and no register value (R86). -/
def execReset (s : State) : Host.Outcome State Fault Refusal :=
  if Legal s.cfg then runBuild s (restartRegs s.cfg) s.out.release else .refused .illegalConfig

end Sys2Proof.Machine
end

