-- ==== Sys2Proof/Machine/Scheduler.lean ====
section
/-! DEFINITION. The meanings of TICK and NOP (42_scheduler.md section 1). -/

namespace Sys2Proof.Machine

/-- TICK steps 1 and 2 (R59): the lookup of the slot `CNT` holds, and the pulse if it is set.  Nothing when `CNT` is no
slot, which R13 rules out. -/
def tickLookup (s : State) (r : Regs) : Option (Regs × Outputs) :=
  match Memory.read (slots s.cfg.n) r.seq r.cnt with
  | none => none
  | some true => some (pulse r s.out)
  | some false => some (r, s.out)

/-- TICK steps 3 and 4 (R59): increment; at `4N` the counter goes to 0 and the sequence is rebuilt from the generator
state carried forward.  The value `4N` is never stored (R13). -/
def tickAdvance (s : State) (r : Regs) (o : Outputs) : Host.Outcome State Fault Refusal :=
  if r.cnt + 1 = slots s.cfg.n then runBuild s { r with cnt := 0 } o
  else .next (s.toIdle { r with cnt := r.cnt + 1 } o)

/-- TICK (R59): lookup, actuation, increment, window-end rebuild, in that order (R60). -/
def execTick (s : State) : Host.Outcome State Fault Refusal :=
  whenIdle s fun r =>
    match tickLookup s r with
    | none => .fault (.slotOutOfRange r.cnt)
    | some after => tickAdvance s after.1 after.2

/-- NOP (R61): the block stays idle and nothing changes. -/
def execNop (s : State) : Host.Outcome State Fault Refusal :=
  whenIdle s fun r => .next (s.toIdle r s.out)

end Sys2Proof.Machine
end

