-- ==== Sys2Proof/Machine/Dispatch.lean ====
section
/-! DEFINITION. One arm per command, each a direct call of its meaning. -/

namespace Sys2Proof.Machine

def exec (i : Instr) (s : State) : Host.Outcome State Fault Refusal :=
  match i with
  | .reset => Sys2Proof.Machine.execReset s
  | .nop => Sys2Proof.Machine.execNop s
  | .tick => Sys2Proof.Machine.execTick s
  | .step => Sys2Proof.Machine.execStep s
  | .build => Sys2Proof.Machine.execBuild s
  | .pulse => Sys2Proof.Machine.execPulse s
  | .reserved0101 => Sys2Proof.Machine.execReserved0101 s
  | .reserved0110 => Sys2Proof.Machine.execReserved0110 s
  | .reserved0111 => Sys2Proof.Machine.execReserved0111 s

end Sys2Proof.Machine
end

