-- ==== Sys2Proof/Machine/Step.lean ====
section
/-! DEFINITION. One step of the block (R34): the next step input is consumed, decoded and run to completion. -/

namespace Sys2Proof.Machine

/-- One step: the presented step input selects one operation (R34, R37); with none presented the block stays as it is. -/
def step (s : State) : Host.Outcome State Fault Refusal :=
  match fetch s with
  | none => noInput s
  | some (w, s') => exec (decode w) s'

/-- `s` with a word placed as the step input that the next step consumes (its bits above `nbits` are 0).  The block has no
program memory (R33): this stands for the environment presenting that input (log entry 3). -/
def State.withFetchWord (s : State) (nbits w : Nat) : State :=
  { s with inputs := BitVec.ofNat 4 (w % 2 ^ nbits) :: s.inputs.tail }

end Sys2Proof.Machine
end

