-- ==== Sys2Proof/WellFormed.lean ====
section
/-! DEFINITION. Which commands a step-input program may be written with. -/

namespace Sys2Proof

/-- A command that a program can name: one of RESET, NOP, TICK, STEP, BUILD and PULSE (R42).
The three reserved inputs are words of `IN4` that no source gives a meaning (R40). -/
def Instr.wellFormed : Instr → Bool
  | .reset => true
  | .nop => true
  | .tick => true
  | .step => true
  | .build => true
  | .pulse => true
  | .reserved0101 => false
  | .reserved0110 => false
  | .reserved0111 => false

end Sys2Proof
end

