-- ==== Sys2Proof/Machine/Assembler.lean ====
section
/-! DEFINITION. The step-input program syntax of R42: lines, their expansion to commands, the encoding as hexadecimal
digits, and reading the text.  Notation only (D18): the machine runs the step inputs, not the text. -/

namespace Sys2Proof.Machine

/-- One line of a program: a command by its mnemonic, or one of the three pseudo-instructions (R42). -/
inductive AsmLine where
  | command (i : Instr)
  | ticks (k : Nat)
  | window
  | idle (k : Nat)
deriving DecidableEq, Repr

/-- A line a program may hold: the mnemonics are RESET, NOP, TICK, STEP, BUILD and PULSE (R42). -/
def AsmLine.wellFormed : AsmLine → Bool
  | .command i => i.wellFormed
  | .ticks _ => true
  | .window => true
  | .idle _ => true

/-- The commands a line stands for (R42): `TICKS k` is `k` TICKs, `WINDOW` is `TICKS 4N`, `IDLE k` is `k` NOPs. -/
def AsmLine.expand (n : Nat) : AsmLine → List Instr
  | .command i => [i]
  | .ticks k => List.replicate k .tick
  | .window => List.replicate (slots n) .tick
  | .idle k => List.replicate k .nop

/-- The step inputs of a program, in program order (R42). -/
def assemble (n : Nat) (program : List AsmLine) : List StepInput :=
  (program.flatMap (AsmLine.expand n)).map encode

/-- The hexadecimal digits `0` to `F` in order. -/
def hexDigits : List Char :=
  ['0', '1', '2', '3', '4', '5', '6', '7', '8', '9', 'A', 'B', 'C', 'D', 'E', 'F']

/-- A step input as its hexadecimal digit (R42). -/
def hexDigit (w : StepInput) : Char := hexDigits.getD w.toNat '0'

/-- The encoding of a program: its step inputs as hexadecimal digits in program order (R42). -/
def encoding (n : Nat) (program : List AsmLine) : List Char := (assemble n program).map hexDigit

/-- The step input a hexadecimal digit stands for; `9` to `F` are RESET too (R42).  R42 writes its digits in upper case;
that `a` to `f` are read like `A` to `F` is the model's choice (DESIGN CHOICE, log entry 13). -/
def hexValue (c : Char) : Option StepInput := (hexDigits.idxOf? c.toUpper).map (BitVec.ofNat 4)

/-- Why a line of text is refused. -/
inductive AsmReject where
  /-- The first word is no mnemonic and no pseudo-instruction of R42. -/
  | unknownWord (word : List Char)
  /-- A mnemonic with an operand ("Mnemonics take no operands"), or a pseudo-instruction with the wrong ones. -/
  | wrongOperands (word : List Char)
  /-- The operand `k` is no decimal number. -/
  | notANumber (word : List Char)
deriving DecidableEq, Repr

/-- The text of a line up to its comment: `;` starts a comment that runs to the end of the line (R42). -/
def dropComment (line : List Char) : List Char := line.takeWhile (· != ';')

/-- The words of a line: maximal runs of characters other than a space or a tab (log entry 13). -/
def splitWords (line : List Char) : List (List Char) :=
  (line.splitBy (fun a b => (a == ' ' || a == '\t') == (b == ' ' || b == '\t'))).filter
    (fun word => !(word.all fun c => c == ' ' || c == '\t'))

/-- A decimal number, most significant digit first (log entry 13). -/
def parseNumber (word : List Char) : Option Nat :=
  if word ≠ [] ∧ word.all Char.isDigit then some (word.foldl (fun acc c => 10 * acc + (c.toNat - 48)) 0) else none

/-- A word with a `k` operand. -/
def parseCounted (mk : Nat → AsmLine) (word : List Char) : List (List Char) → Except AsmReject (Option AsmLine)
  | [k] => match parseNumber k with
    | some v => .ok (some (mk v))
    | none => .error (.notANumber k)
  | _ => .error (.wrongOperands word)

/-- A word that takes no operand. -/
def parseBare (l : AsmLine) (word : List Char) : List (List Char) → Except AsmReject (Option AsmLine)
  | [] => .ok (some l)
  | _ => .error (.wrongOperands word)

/-- The words of one line, upper-case (mnemonics are case-insensitive, R42).  A line with no word holds no command. -/
def parseWords : List (List Char) → Except AsmReject (Option AsmLine)
  | [] => .ok none
  | word :: rest =>
    if word = ['R', 'E', 'S', 'E', 'T'] then parseBare (.command .reset) word rest
    else if word = ['N', 'O', 'P'] then parseBare (.command .nop) word rest
    else if word = ['T', 'I', 'C', 'K'] then parseBare (.command .tick) word rest
    else if word = ['S', 'T', 'E', 'P'] then parseBare (.command .step) word rest
    else if word = ['B', 'U', 'I', 'L', 'D'] then parseBare (.command .build) word rest
    else if word = ['P', 'U', 'L', 'S', 'E'] then parseBare (.command .pulse) word rest
    else if word = ['W', 'I', 'N', 'D', 'O', 'W'] then parseBare .window word rest
    else if word = ['T', 'I', 'C', 'K', 'S'] then parseCounted .ticks word rest
    else if word = ['I', 'D', 'L', 'E'] then parseCounted .idle word rest
    else .error (.unknownWord word)

/-- One line of text (R42). -/
def parseLine (line : List Char) : Except AsmReject (Option AsmLine) :=
  parseWords (splitWords ((dropComment line).map Char.toUpper))

/-- A program text, one mnemonic per line (R42): its lines in order, or the first line's refusal. -/
def parseLines : List (List Char) → Except AsmReject (List AsmLine)
  | [] => .ok []
  | line :: rest =>
    match parseLine line, parseLines rest with
    | .error e, _ => .error e
    | .ok _, .error e => .error e
    | .ok none, .ok ls => .ok ls
    | .ok (some l), .ok ls => .ok (l :: ls)

/-- A program text as characters: its lines end at line feeds. -/
def parseProgram (text : List Char) : Except AsmReject (List AsmLine) := parseLines (text.splitOn '\n')

end Sys2Proof.Machine
end

