-- ==== Sys2Proof/Machine/Observe.lean ====
section
/-! DEFINITION. The observation port (R20): read-only, at step boundaries.  A read returns a value or a refusal and has no
state to change.  In `UNINIT` the registers hold no value and a read is refused (R22); in `BUSY` there is no step boundary
to read at (R31 (c)). -/

namespace Sys2Proof.Machine

/-- A read of a register through the port.  Where two grounds of refusal meet the spec ranks none: the model names an
illegal configuration before the phase (DESIGN CHOICE, log entry 12). -/
def observe {α : Type} (s : State) (f : Regs → α) : Except Refusal α :=
  if Legal s.cfg then
    match s.ctl with
    | .uninit => .error .uninitialised
    | .busy => .error .busyOverrun
    | .idle r => .ok (f r)
  else .error .illegalConfig

/-- The `busy` output: 1 exactly when `PHASE = BUSY` (R20, R90). -/
def obsBusy (s : State) : Bool := s.phase == .busy

/-- `LFSR` at the port. -/
def obsLfsr (s : State) : Except Refusal Word := observe s Regs.lfsr

/-- `CNT` at the port, on its `CW` bits (R13, R20). -/
def obsCnt (s : State) : Except Refusal (BitVec (counterWidth s.cfg.n)) :=
  observe s fun r => BitVec.ofNat (counterWidth s.cfg.n) r.cnt

/-- `POL` at the port, one bit. -/
def obsPol (s : State) : Except Refusal (BitVec 1) := observe s fun r => BitVec.ofBool r.pol

/-- All of `SEQ` as the flat vector `seq_obs` (R20). -/
def obsSeq (s : State) : Except Refusal (BitVec (slots s.cfg.n)) :=
  observe s fun r => Memory.vector (slots s.cfg.n) r.seq

/-- Byte `k` of `SEQ` (R26); a byte outside `[0, NB)` is refused (R29).  Where `observe` refuses too, its
refusal is the one named (DESIGN CHOICE, log entry 12). -/
def obsSeqByte (s : State) (k : Nat) : Except Refusal (BitVec 8) :=
  match observe s Regs.seq with
  | .error e => .error e
  | .ok seq => if k < numBytes s.cfg.n then .ok (Memory.byte (slots s.cfg.n) seq k) else .error (.byteOutOfRange k)

end Sys2Proof.Machine
end

