-- ==== Sys2Proof/Safety.lean ====
section
/-! DEFINITION. What a good state and a safe run are, and the words that statements about runs and builds are made of. -/

namespace Sys2Proof.Machine

/-- R23 (a), (b), (c) for the registers of an `IDLE` state. -/
structure Regs.Good (cfg : Config) (r : Regs) : Prop where
  /-- Every set slot is distinct and below `4N`, in canonical form. -/
  seq_wf : Memory.wf (slots cfg.n) r.seq
  /-- `popcount(SEQ) = N`. -/
  seq_full : Memory.popcount r.seq = cfg.n
  /-- `LFSR ≠ 0`. -/
  lfsr_ne : r.lfsr ≠ 0#16
  /-- `0 ≤ CNT < 4N`. -/
  cnt_lt : r.cnt < slots cfg.n

/-- Both drive signals are 0. -/
def Outputs.Released (o : Outputs) : Prop := o.coilA = false ∧ o.coilB = false

/-- The invariant of the block: a legal configuration; in `IDLE` the registers of R23; drive signals both 0 in `UNINIT`
and `IDLE`, and never both 1 (R17). -/
structure State.Inv (s : State) : Prop where
  legal : Legal s.cfg
  regs : ∀ r, s.ctl = .idle r → Regs.Good s.cfg r
  released : s.phase ≠ .busy → s.out.Released
  exclusive : ¬(s.out.coilA = true ∧ s.out.coilB = true)

/-- `k` steps of the machine, stopping at the first fault or refusal.  It is the host's run of `core`
(`Laws.core_run_eq`), written over `step`. -/
def run : Nat → State → Host.Outcome State Fault Refusal
  | 0, s => .next s
  | k + 1, s =>
    match step s with
    | .next t => run k t
    | .fault f => .fault f
    | .refused r => .refused r

/-- A safe run of `k` steps: every one of them answers a next state. -/
def SafeRun (k : Nat) (s : State) : Prop := ∃ t, run k s = .next t

/-- The slots that the first `D` draws from `l` have as candidates (R51 steps 2a, 2b; the `i`-th draw is
`next^(i+1)(l)`, R49). -/
def candidatesOf (n : Nat) (l : Word) (D : Nat) : Finset Nat :=
  (Finset.range D).image fun i => candidate n (Lfsr.next^[i + 1] l)

/-- How many of the first `D` draws from `l` collide: their candidate was one of an earlier draw (R51 step 2c). -/
def collisionsOf (n : Nat) (l : Word) (D : Nat) : Nat :=
  ((Finset.range D).filter fun i => candidate n (Lfsr.next^[i + 1] l) ∈ candidatesOf n l i).card

/-- `m` pulse events that alternate, the first on the terminal that `pol` selects (R67). -/
def alternating (pol : Bool) (m : Nat) : List Terminal :=
  (List.range m).map fun k => terminalOf (pol ^^ decide (k % 2 = 1))

/-- The set slots of a store below slot `c`. -/
def setBelow (m : Memory) (c : Nat) : Nat := (m.filter (· < c)).length

end Sys2Proof.Machine
end

