-- ==== Sys2Proof/Certificates/Slice0/Obligations.lean ====
section
/-! DEFINITION. The statements about the block, one per numbered rule (or group of rules) of the spec. -/

open Sys2Proof Sys2Proof.Machine

/-- R43: bit 15 of `next(s)` is the exclusive OR of bits 0, 2, 3 and 5 of `s`, and bit `j` below it is bit `j + 1`. -/
def Obligations.NextShiftsRightAndInsertsTheFeedbackBit : Prop :=
  ∀ s : Word,
    (Lfsr.next s).getLsbD 15 = (s.getLsbD 0 ^^ s.getLsbD 2 ^^ s.getLsbD 3 ^^ s.getLsbD 5) ∧
    ∀ j < 15, (Lfsr.next s).getLsbD j = s.getLsbD (j + 1)

/-- R45: `prev` is the given bit expression and the two-sided inverse of `next`; zero maps to zero, a nonzero word never
does, however often `next` is applied. -/
def Obligations.PrevIsTheInverseOfNext : Prop :=
  (∀ t : Word,
    (Lfsr.prev t).getLsbD 0 = (t.getLsbD 15 ^^ t.getLsbD 1 ^^ t.getLsbD 2 ^^ t.getLsbD 4) ∧
    ∀ j < 15, (Lfsr.prev t).getLsbD (j + 1) = t.getLsbD j) ∧
  (∀ s, Lfsr.prev (Lfsr.next s) = s) ∧
  (∀ t, Lfsr.next (Lfsr.prev t) = t) ∧
  Function.Bijective Lfsr.next ∧
  Lfsr.next 0#16 = 0#16 ∧
  ∀ s, s ≠ 0#16 → ∀ k, Lfsr.next^[k] s ≠ 0#16

/-- R46: every nonzero word lies on one cycle of exactly 65535 states, which holds every nonzero word. -/
def Obligations.NonzeroWordsFormOneCycleOf65535 : Prop :=
  ∀ s : Word, s ≠ 0#16 →
    Lfsr.next^[65535] s = s ∧
    (∀ i, 0 < i → i < 65535 → Lfsr.next^[i] s ≠ s) ∧
    ∀ t : Word, t ≠ 0#16 → ∃ i < 65535, Lfsr.next^[i] s = t

/-- R47: zero is the one fixed point of `next`, and no step makes `LFSR` zero: if it is not zero before (or holds no value
before), it is not zero after. -/
def Obligations.ZeroIsTheOnlyFixedPointAndIsNeverReached : Prop :=
  (∀ s, Lfsr.next s = s ↔ s = 0#16) ∧
  ∀ s t : State, step s = .next t →
    (∀ r, s.ctl = .idle r → r.lfsr ≠ 0#16) → ∀ q, t.ctl = .idle q → q.lfsr ≠ 0#16

/-- R48: a draw is the draw before it shifted right, so the next candidate is the previous draw shifted and masked while
`CW ≤ 15`, and has the feedback bit on top at `N = 16384`.  From `0x0001` with `N = 4` the first twelve draws all have
candidate 0: one sets it and eleven collide. -/
def Obligations.ConsecutiveDrawsShiftTheCandidate : Prop :=
  (∀ d : Word, ∀ j ≤ 14, (Lfsr.next d).getLsbD j = d.getLsbD (j + 1)) ∧
  (∀ n ∈ legalLengths, counterWidth n ≤ 15 →
    ∀ d : Word, candidate n (Lfsr.next d) = (d.toNat >>> 1) &&& (4 * n - 1)) ∧
  (∀ d : Word, (candidate 16384 (Lfsr.next d)).testBit 15
    = (d.getLsbD 0 ^^ d.getLsbD 2 ^^ d.getLsbD 3 ^^ d.getLsbD 5)) ∧
  ∀ i, 1 ≤ i → i ≤ 12 → candidate 4 (Lfsr.next^[i] 0x0001#16) = 0

/-- R50: STEP advances `LFSR` by one `next` and changes nothing else; its corner values; 65535 STEPs return the state to
its start. -/
def Obligations.StepCommandDrawsOnceAndNothingElse : Prop :=
  decode 0b0010#4 = .step ∧
  (∀ (s : State) (r : Regs), Legal s.cfg → s.ctl = .idle r →
    exec .step s = .next { s with ctl := .idle { r with lfsr := Lfsr.next r.lfsr } } ∧
    ∀ rest, s.inputs = List.replicate 65535 0b0010#4 ++ rest → run 65535 s = .next { s with inputs := rest }) ∧
  Lfsr.next 0x0000#16 = 0x0000#16 ∧ Lfsr.next 0x0001#16 = 0x8000#16 ∧
  Lfsr.next 0xFFFF#16 = 0x7FFF#16 ∧ Lfsr.next 0xACE1#16 = 0x5670#16

/-- R51, R53: `build` clears the store and draws, with no cap, until exactly `N` slots are set.  It completes with result
`b` exactly when `b.draws` is the first number of draws whose candidates are `N` distinct slots, `SEQ` holds those slots and
`LFSR` is the last draw; it does not complete exactly when no number of draws reaches `N` slots.  As a command it writes
only `LFSR` and `SEQ`. -/
def Obligations.BuildIsUncappedRejectionSampling : Prop :=
  (∀ n ∈ legalLengths, ∀ (l : Word) (b : BuildResult), build n l = some b ↔
    (candidatesOf n l b.draws).card = n ∧
    (∀ D < b.draws, (candidatesOf n l D).card < n) ∧
    b.seq = (candidatesOf n l b.draws).sort (· ≤ ·) ∧
    b.lfsr = Lfsr.next^[b.draws] l) ∧
  (∀ n ∈ legalLengths, ∀ l : Word, build n l = none ↔ ∀ D, (candidatesOf n l D).card < n) ∧
  ∀ (s : State) (r : Regs) (b : BuildResult), Legal s.cfg → s.ctl = .idle r → build s.cfg.n r.lfsr = some b →
    exec .build s = .next { s with ctl := .idle { r with lfsr := b.lfsr, seq := b.seq } }

/-- R54 (a) to (d): what a completed build leaves. -/
def Obligations.CompletedBuildFillsExactlyNDistinctSlots : Prop :=
  (∀ n ∈ legalLengths, ∀ (l : Word) (b : BuildResult), build n l = some b →
    Memory.popcount b.seq = n ∧ b.seq.Nodup ∧ (∀ p ∈ b.seq, p < 4 * n) ∧
    b.lfsr = Lfsr.next^[b.draws] l ∧
    b.draws = n + collisionsOf n l b.draws ∧ n ≤ b.draws) ∧
  ∀ (s₁ s₂ t₁ : State) (r₁ r₂ q₁ : Regs),
    Legal s₁.cfg → Legal s₂.cfg → s₁.ctl = .idle r₁ → s₂.ctl = .idle r₂ →
    s₁.cfg.n = s₂.cfg.n → r₁.lfsr = r₂.lfsr → exec .build s₁ = .next t₁ → t₁.ctl = .idle q₁ →
    ∃ t₂ q₂, exec .build s₂ = .next t₂ ∧ t₂.ctl = .idle q₂ ∧ q₁.seq = q₂.seq ∧ q₁.lfsr = q₂.lfsr

/-- 41_builder.md section 2 (the bound of R55, not its table of worst cases): from a nonzero word a build completes within 65535 draws, and
any larger bound on the draws gives the same result. -/
def Obligations.BuildFromNonzeroCompletesWithin65535Draws : Prop :=
  ∀ n ∈ legalLengths, ∀ l : Word, l ≠ 0#16 →
    ∃ b, build n l = some b ∧ b.draws ≤ 65535 ∧
      ∀ fuel, b.draws ≤ fuel → buildLoop n fuel 0 0 Memory.cleared l = some b

/-- 41_builder.md section 2 (R56): a build from zero.  That the operation which never completes is a step to a `BUSY` state
is the model's reading (DEDUCED, log entry 8), and so is the `BUSY` block's staying as it is when nothing is presented
(DEDUCED, log entry 3).  Every draw is 0 and every candidate slot 0.  With `N = 1` it completes after one draw with
`SEQ = {0}`; with `N ≥ 2` it completes under no bound on the draws, `PHASE` stays `BUSY` (step after step when nothing is
presented), every command but RESET is refused and RESET is accepted.  From a good state that is not `BUSY` no step gets
there. -/
def Obligations.ZeroStateBuildDivergesUnlessNIsOne : Prop :=
  (∀ k, Lfsr.next^[k] 0#16 = 0#16) ∧ (∀ n, candidate n 0#16 = 0) ∧
  build 1 0#16 = some { seq := [0], lfsr := 0#16, draws := 1 } ∧
  (∀ n fuel, 2 ≤ n → buildLoop n fuel 0 0 Memory.cleared 0#16 = none) ∧
  (∀ (s : State) (r : Regs), Legal s.cfg → s.ctl = .idle r → r.lfsr = 0#16 → 2 ≤ s.cfg.n →
    exec .build s = .next { s with ctl := .busy }) ∧
  (∀ s : State, Legal s.cfg → s.ctl = .busy →
    (s.inputs = [] → step s = .next s) ∧
    (∀ i, i ≠ .reset → ∃ why, exec i s = .refused why) ∧
    ∃ t, exec .reset s = .next t ∧ t.phase = .idle) ∧
  ∀ s t : State, s.Inv → s.phase ≠ .busy → step s = .next t → t.phase ≠ .busy

/-- 41_builder.md section 3: BUILD completes from every nonzero generator word, replaces `SEQ` and `LFSR`, and leaves `CNT`, `POL`, the outputs
and everything else; one draw when `N = 1`; the worked example. -/
def Obligations.BuildCommandReplacesSeqAndLfsrOnly : Prop :=
  decode 0b0011#4 = .build ∧
  (∀ (s : State) (r : Regs), Legal s.cfg → s.ctl = .idle r → r.lfsr ≠ 0#16 ∨ s.cfg.n = 1 →
    ∃ b, build s.cfg.n r.lfsr = some b ∧ (s.cfg.n = 1 → b.draws = 1) ∧
      exec .build s = .next { s with ctl := .idle { r with lfsr := b.lfsr, seq := b.seq } }) ∧
  build 4 0x0001#16 = some { seq := [0, 2, 4, 8], lfsr := 0xD002#16, draws := 15 }

/-- R59: TICK.  The slot `CNT` held is looked up; if it is set, one pulse on the terminal of `POL` and the flip; then the
increment; at `4N` the counter is 0 and the sequence is rebuilt from the generator state.  The only TICK that does not
complete, back in `IDLE`, is the one whose rebuild starts from zero with `N ≥ 2`. -/
def Obligations.TickLooksUpPulsesCountsAndRebuilds : Prop :=
  decode 0b0001#4 = .tick ∧
  ∀ (s : State) (r : Regs) (hit : Bool), Legal s.cfg → s.ctl = .idle r → r.cnt < 4 * s.cfg.n → s.out.Released →
    Memory.bit r.seq r.cnt = hit →
    ∀ out', out' = { s.out with
        history := s.out.history ++ if hit then [if r.pol then Terminal.B else Terminal.A] else [] } →
      (r.cnt + 1 < 4 * s.cfg.n →
        exec .tick s = .next
          { s with ctl := .idle { r with cnt := r.cnt + 1, pol := r.pol ^^ hit }, out := out' }) ∧
      (r.cnt + 1 = 4 * s.cfg.n → r.lfsr ≠ 0#16 ∨ s.cfg.n = 1 →
        ∃ b, build s.cfg.n r.lfsr = some b ∧
          exec .tick s = .next
            { s with ctl := .idle { lfsr := b.lfsr, cnt := 0, pol := r.pol ^^ hit, seq := b.seq }, out := out' }) ∧
      (r.cnt + 1 = 4 * s.cfg.n → r.lfsr = 0#16 → 2 ≤ s.cfg.n →
        build s.cfg.n r.lfsr = none ∧ ∀ t, exec .tick s = .next t → t.phase ≠ .idle)

/-- 42_scheduler.md section 1, V-T8, as the model reads them (DEDUCED, log entry 8): a window-end TICK whose rebuild never
completes answers the `BUSY` state whose history already holds the pulse of a set slot, and which differs in nothing
else. -/
def Obligations.WindowEndTickFromZeroKeepsItsPulseAndStaysBusy : Prop :=
  ∀ (s : State) (r : Regs) (hit : Bool), Legal s.cfg → s.ctl = .idle r → r.cnt + 1 = 4 * s.cfg.n → s.out.Released →
    Memory.bit r.seq r.cnt = hit → r.lfsr = 0#16 → 2 ≤ s.cfg.n →
    exec .tick s = .next { s with
      ctl := .busy
      out := { s.out with
        history := s.out.history ++ if hit then [if r.pol then Terminal.B else Terminal.A] else [] } }

/-- R61: NOP changes nothing, and neither does any number of NOPs. -/
def Obligations.NopsLeaveTheStateUnchanged : Prop :=
  decode 0b0000#4 = .nop ∧
  ∀ (s : State) (r : Regs), Legal s.cfg → s.ctl = .idle r →
    exec .nop s = .next s ∧
    ∀ k rest, s.inputs = List.replicate k 0b0000#4 ++ rest → run k s = .next { s with inputs := rest }

/-- R62: a window, from a good state with `CNT = 0`, whatever NOPs lie between its TICKs.  After `c < 4N` TICKs the counter
is `c`, the registers are otherwise those of the start but for `POL`, and there was one pulse for each set slot below `c`;
after the `4N`-th TICK there were exactly `N` pulses, the counter is 0 and the sequence is rebuilt. -/
def Obligations.WindowOf4NTicksEmitsExactlyNPulses : Prop :=
  ∀ (s : State) (r : Regs), s.Inv → s.ctl = .idle r → r.cnt = 0 →
    ∀ ws rest, s.inputs = ws ++ rest → (∀ w ∈ ws, w = 0b0000#4 ∨ w = 0b0001#4) →
      (ws.count 0b0001#4 < 4 * s.cfg.n →
        run ws.length s = .next
          { s with
            ctl := .idle { r with
              cnt := ws.count 0b0001#4
              pol := r.pol ^^ decide (setBelow r.seq (ws.count 0b0001#4) % 2 = 1) }
            out := { s.out with
              history := s.out.history ++ alternating r.pol (setBelow r.seq (ws.count 0b0001#4)) }
            inputs := rest }) ∧
      (ws.count 0b0001#4 = 4 * s.cfg.n →
        ∃ b, build s.cfg.n r.lfsr = some b ∧
          run ws.length s = .next
            { s with
              ctl := .idle
                { lfsr := b.lfsr, cnt := 0, pol := r.pol ^^ decide (s.cfg.n % 2 = 1), seq := b.seq }
              out := { s.out with history := s.out.history ++ alternating r.pol s.cfg.n }
              inputs := rest })

/-- R65: a pulse drives exactly the terminal `POL` selects, releases it, emits its event and flips `POL`. -/
def Obligations.PulseDrivesTheSelectedTerminalAndFlipsPol : Prop :=
  ∀ (r : Regs) (o : Outputs), o.Released → ∀ t, t = (if r.pol then Terminal.B else Terminal.A) →
    (o.energized t).coilA = decide (t = .A) ∧ (o.energized t).coilB = decide (t = .B) ∧
    pulse r o = ({ r with pol := !r.pol }, { o with history := o.history ++ [t] })

/-- 43_actuator.md section 2: PULSE runs one pulse; two PULSEs in a row use both terminals and leave `POL` as it was. -/
def Obligations.PulseCommandEmitsOneEvent : Prop :=
  decode 0b0100#4 = .pulse ∧
  ∀ (s : State) (r : Regs), Legal s.cfg → s.ctl = .idle r → s.out.Released →
    ∃ t, exec .pulse s = .next t ∧
      t = { s with
        ctl := .idle { r with pol := !r.pol }
        out := { s.out with history := s.out.history ++ [if r.pol then .B else .A] } } ∧
      exec .pulse t = .next
        { s with out := { s.out with
            history := s.out.history ++ [if r.pol then .B else .A, if r.pol then .A else .B] } }

/-- R66: the two drive signals are never both 1, not while a pulse is in progress and not after any step, and both are 0
between operations. -/
def Obligations.CoilOutputsAreMutuallyExclusive : Prop :=
  (∀ (o : Outputs) (t : Terminal), o.Released →
    ¬((o.energized t).coilA = true ∧ (o.energized t).coilB = true) ∧ (o.pulse t).Released) ∧
  ∀ s t : State, s.Inv → step s = .next t →
    ¬(t.out.coilA = true ∧ t.out.coilB = true) ∧ (t.phase = .idle → t.out.Released)

/-- R67: over any run without RESET the events alternate, whatever commands run and however many windows pass, and since
a restart with `POL0 = 0` pulse `k` is on A when `k` is even and on B when it is odd. -/
def Obligations.PulsePolarityAlternatesStrictly : Prop :=
  (∀ (k : Nat) (s t : State) (r : Regs), s.ctl = .idle r → (∀ w ∈ s.inputs, w.getLsbD 3 = false) →
    run k s = .next t →
    ∃ m, t.out.history = s.out.history ++ alternating r.pol m ∧
      ∀ q, t.ctl = .idle q → q.pol = (r.pol ^^ decide (m % 2 = 1))) ∧
  ∀ (k : Nat) (s s₀ t : State), s.cfg.pol0 = false → exec .reset s = .next s₀ →
    (∀ w ∈ s₀.inputs, w.getLsbD 3 = false) → run k s₀ = .next t →
    ∃ m, t.out.history = s.out.history ++
      (List.range m).map fun k => if k % 2 = 0 then Terminal.A else Terminal.B

/-- R69: the output history only grows, by at most one event a step, and RESET keeps it. -/
def Obligations.OutputHistoryIsAppendOnly : Prop :=
  (∀ s t : State, step s = .next t →
    ∃ ev, t.out.history = s.out.history ++ ev ∧ ev.length ≤ 1) ∧
  (∀ (k : Nat) (s t : State), run k s = .next t → s.out.history <+: t.out.history) ∧
  ∀ s t : State, exec .reset s = .next t → t.out.history = s.out.history

/-- R85: RESET, from any phase: both drive signals 0, `LFSR` and `SEQ` as the build from `SEED0` leaves them, `CNT = 0`,
`POL = POL0`, `IDLE`, history kept.  The new `LFSR` is not `SEED0`; a second RESET gives the same state; the worked
example. -/
def Obligations.ResetReseedsRebuildsAndKeepsHistory : Prop :=
  (∀ w : StepInput, w.getLsbD 3 = true → decode w = .reset) ∧
  (∀ s : State, Legal s.cfg →
    ∃ b, build s.cfg.n s.cfg.seed0 = some b ∧ b.lfsr ≠ s.cfg.seed0 ∧ b.lfsr = Lfsr.next^[b.draws] s.cfg.seed0 ∧
      ∀ t, t = { s with
          ctl := .idle { lfsr := b.lfsr, cnt := 0, pol := s.cfg.pol0, seq := b.seq }
          out := { coilA := false, coilB := false, history := s.out.history } } →
        exec .reset s = .next t ∧ exec .reset t = .next t) ∧
  ∀ s : State, s.cfg.n = 4 → s.cfg.seed0 = 0x0001#16 → s.cfg.pol0 = false →
    exec .reset s = .next { s with
      ctl := .idle { lfsr := 0xD002#16, cnt := 0, pol := false, seq := [0, 2, 4, 8] }
      out := { coilA := false, coilB := false, history := s.out.history } }

/-- R86: a RESET while an operation is in progress (with a coil asserted or not) ends in exactly the state of a RESET from
`IDLE` (whatever the registers there): the coil is released, no event is appended. -/
def Obligations.ResetDuringAnOperationEqualsResetFromIdle : Prop :=
  ∀ (s : State) (r : Regs), Legal s.cfg → s.ctl = .busy →
    exec .reset s = exec .reset
      { s with ctl := .idle r, out := { s.out with coilA := false, coilB := false } } ∧
    ∃ t, exec .reset s = .next t ∧ t.phase = .idle ∧ t.out.Released ∧ t.out.history = s.out.history

/-- R22, R87: in `UNINIT` only RESET has a meaning; every other command is refused, and so is every read of a register
through the observation port.  Power-up enters `UNINIT`. -/
def Obligations.UninitAcceptsOnlyReset : Prop :=
  (∀ cfg, (State.powerUp cfg).phase = .uninit) ∧
  ∀ s : State, Legal s.cfg → s.phase = .uninit →
    (∃ t, exec .reset s = .next t ∧ t.phase = .idle) ∧
    (∀ i, i ≠ .reset → i.wellFormed = true → exec i s = .refused .uninitialised) ∧
    (∀ i, i ≠ .reset → ∃ why, exec i s = .refused why) ∧
    obsLfsr s = .error .uninitialised ∧ obsCnt s = .error .uninitialised ∧ obsPol s = .error .uninitialised ∧
    obsSeq s = .error .uninitialised ∧ (∀ k < numBytes s.cfg.n, obsSeqByte s k = .error .uninitialised) ∧
    ∀ k, ∃ why, obsSeqByte s k = .error why

/-- 20_memory.md section 3 (R29), 10_state.md sections 3 and 5 (R20, R22): a read of the port is refused in an illegal
configuration, in `UNINIT` and in `BUSY` (there DEDUCED, log entry 14), whatever is read.  Which refusal is named where two
grounds meet, an illegal configuration before the phase and the phase before a byte outside `[0, NB)`, is the model's
choice (DESIGN CHOICE, log entry 12). -/
def Obligations.ObservationPortRefusalsAreRanked : Prop :=
  ∀ (s : State) (why : Refusal),
    (¬Legal s.cfg ∧ why = .illegalConfig) ∨
    (Legal s.cfg ∧ s.phase = .uninit ∧ why = .uninitialised) ∨
    (Legal s.cfg ∧ s.phase = .busy ∧ why = .busyOverrun) →
    obsLfsr s = .error why ∧ obsCnt s = .error why ∧ obsPol s = .error why ∧ obsSeq s = .error why ∧
    ∀ k, obsSeqByte s k = .error why

/-- 70_reset_and_hazards.md section 3: while `BUSY` only RESET may be presented; every other assigned command is refused as a tick overrun, and `busy`
is 1. -/
def Obligations.BusyRefusesEveryCommandButReset : Prop :=
  ∀ s : State, Legal s.cfg → s.phase = .busy →
    obsBusy s = true ∧
    (∀ i, i ≠ .reset → i.wellFormed = true → exec i s = .refused .busyOverrun) ∧
    ∃ t, exec .reset s = .next t ∧ obsBusy t = false

/-- R40: the three reserved step inputs are refused in every state (in a legal `IDLE` block, where no other ground of
refusal holds, each by its own word), and every other word of `IN4` is assigned. -/
def Obligations.ReservedInputsAreRefused : Prop :=
  decode 0b0101#4 = .reserved0101 ∧ decode 0b0110#4 = .reserved0110 ∧ decode 0b0111#4 = .reserved0111 ∧
  (∀ s : State, (∃ why, exec .reserved0101 s = .refused why) ∧ (∃ why, exec .reserved0110 s = .refused why) ∧
    ∃ why, exec .reserved0111 s = .refused why) ∧
  (∀ s : State, Legal s.cfg → s.phase = .idle →
    exec .reserved0101 s = .refused (.reservedInput 0b0101#4) ∧
    exec .reserved0110 s = .refused (.reservedInput 0b0110#4) ∧
    exec .reserved0111 s = .refused (.reservedInput 0b0111#4)) ∧
  ∀ w : StepInput, (decode w).wellFormed = false ↔ w = 0b0101#4 ∨ w = 0b0110#4 ∨ w = 0b0111#4

/-- R37, R41: the command map. -/
def Obligations.StepInputSelectsTheOperation : Prop :=
  (∀ cmd : BitVec 3, decode ((1#1 ++ cmd : BitVec 4)) = .reset) ∧
  decode 0b0000#4 = .nop ∧ decode 0b0001#4 = .tick ∧ decode 0b0010#4 = .step ∧ decode 0b0011#4 = .build ∧
  decode 0b0100#4 = .pulse ∧ decode 0b0101#4 = .reserved0101 ∧ decode 0b0110#4 = .reserved0110 ∧
  decode 0b0111#4 = .reserved0111

/-- 30_encoding.md sections 2 and 3: the decoder and the encoder agree on every command, and the decoder reads exactly the
one row of the command table that a word matches.  That a number of more than 4 bits is presented to the decoder at all, and
is then rejected by name, is the model's reading of "There is no other length" (DEDUCED, log entry 18). -/
def Obligations.DecodeAndEncodeAgreeWithTheTable : Prop :=
  (∀ i, decode (encode i) = i) ∧
  (∀ w : StepInput, (opcodeRows.filter fun row => row.matchesWord w).map OpcodeRow.instr = [decode w]) ∧
  (∀ w : StepInput, w.getLsbD 3 = false → encode (decode w) = w) ∧
  ∀ w : Nat, 16 ≤ w → decodeWord w = .error (.widerThanIN4 w)

/-- 30_encoding.md section 5, the notation.  A command assembles to its one word and digit, `TICKS k` to `k` TICKs,
`WINDOW` to `4N` of them, `IDLE k` to `k` NOPs, a program to its lines' words in order, each written as its hexadecimal
digit; the words decode to the commands, and the digits read back as the words (`9` to `F` as RESET too).  A line is
read the same in either case, and from `;` on it is a comment.  R42 says case-insensitive of the mnemonics; that the
pseudo-instructions (`WINDOW`, `TICKS`, `IDLE`) are so too is the model's choice (DESIGN CHOICE, log entry 13). -/
def Obligations.ProgramsRoundTripThroughTheirEncoding : Prop :=
  (∀ n : Nat,
    encoding n [.command .reset, .command .nop, .command .tick, .command .step, .command .build, .command .pulse]
      = ['8', '0', '1', '2', '3', '4'] ∧
    (∀ i, assemble n [.command i] = [encode i]) ∧
    (∀ k, assemble n [.ticks k] = List.replicate k 0b0001#4) ∧
    assemble n [.window] = List.replicate (4 * n) 0b0001#4 ∧
    (∀ k, assemble n [.idle k] = List.replicate k 0b0000#4) ∧
    ∀ p q, assemble n (p ++ q) = assemble n p ++ assemble n q) ∧
  (∀ (n : Nat) (program : List AsmLine),
    (assemble n program).map decode = program.flatMap (AsmLine.expand n) ∧
    (encoding n program).map hexValue = (assemble n program).map some) ∧
  (∀ w : StepInput, w.getLsbD 3 = true → (hexValue (hexDigit w)).map decode = some .reset) ∧
  ([['R', 'E', 'S', 'E', 'T'], ['N', 'O', 'P'], ['T', 'I', 'C', 'K'], ['S', 'T', 'E', 'P'], ['B', 'U', 'I', 'L', 'D'],
      ['P', 'U', 'L', 'S', 'E'], ['W', 'I', 'N', 'D', 'O', 'W']].map parseLine
    = [.ok (some (.command .reset)), .ok (some (.command .nop)), .ok (some (.command .tick)),
      .ok (some (.command .step)), .ok (some (.command .build)), .ok (some (.command .pulse)), .ok (some .window)]) ∧
  (∀ line, parseLine (line.map Char.toUpper) = parseLine line) ∧
  ∀ line comment, ';' ∉ line → parseLine (line ++ ';' :: comment) = parseLine line

/-- 30_encoding.md section 1: one step consumes the presented step input and runs the operation it decodes to, to completion; with nothing
presented the state is retained (the model's reading of R88, log entry 3). -/
def Obligations.StepRunsTheDecodedCommand : Prop :=
  (∀ (s : State) (w : StepInput) (rest : List StepInput), s.inputs = w :: rest →
    step s = exec (decode w) { s with inputs := rest }) ∧
  ∀ s : State, s.inputs = [] → Legal s.cfg → step s = .next s

/-- 60_exceptions.md section 1 (R74): each condition without a meaning has its own outcome.  A reserved input, an input
before the first RESET, an input while `BUSY` and an illegal configuration are refused, each by its own name, and nothing
else is refused; a build from zero with `N ≥ 2`, in BUILD or in a window-end TICK, is the divergence.  Which refusal is
named where two grounds meet is the model's choice (DESIGN CHOICE, log entry 12), and so is the divergence's being a step
to a `BUSY` state (DEDUCED, log entry 8). -/
def Obligations.EachMeaninglessConditionHasItsOwnOutcome : Prop :=
  (∀ (s : State) (i : Instr), i.wellFormed = false → exec i s = .refused (.reservedInput (encode i))) ∧
  (∀ (s : State) (i : Instr), i.wellFormed = true → ¬Legal s.cfg → exec i s = .refused .illegalConfig) ∧
  (∀ (s : State) (i : Instr), i.wellFormed = true → i ≠ .reset → Legal s.cfg → s.phase = .uninit →
    exec i s = .refused .uninitialised) ∧
  (∀ (s : State) (i : Instr), i.wellFormed = true → i ≠ .reset → Legal s.cfg → s.phase = .busy →
    exec i s = .refused .busyOverrun) ∧
  (∀ (s : State) (r : Regs), Legal s.cfg → s.ctl = .idle r → r.lfsr = 0#16 → 2 ≤ s.cfg.n →
    (∃ t, exec .build s = .next t ∧ t.phase = .busy) ∧
    (r.cnt + 1 = 4 * s.cfg.n → ∃ t, exec .tick s = .next t ∧ t.phase = .busy)) ∧
  ∀ (s : State) (i : Instr) (why : Refusal), Legal s.cfg → i.wellFormed = true → i = .reset ∨ s.phase = .idle →
    exec i s ≠ .refused why

/-- 41_builder.md section 1 (R52), 00_scope.md section 4 (R5 to R7), 70_reset_and_hazards.md section 3 (R93): the
configurations that are this block are those with `N` a power of two up to 16384 and `SEED0` nonzero; the bit-space is
exactly `4N`, its mask `2^CW - 1`.  The spec checks once, at elaboration; that every step of any other configuration is
refused, one without input too, is how the model does it (DESIGN CHOICE, log entry 12). -/
def Obligations.EveryStepOfAnIllegalConfigurationIsRefused : Prop :=
  (∀ cfg : Config, Legal cfg ↔ (∃ k ≤ 14, cfg.n = 2 ^ k) ∧ cfg.seed0 ≠ 0#16) ∧
  (∀ n ∈ legalLengths, slots n = 4 * n ∧ slots n = 2 ^ counterWidth n ∧ slotMask n = 2 ^ counterWidth n - 1) ∧
  ∀ s : State, ¬Legal s.cfg → ∃ why, step s = .refused why

/-- R26: the byte view. -/
def Obligations.ByteViewIsLeastSignificantBitFirst : Prop :=
  (∀ (size : Nat) (m : Memory) (k j : Nat), j < 8 →
    (Memory.byte size m k).getLsbD j = (decide (8 * k + j < size) && Memory.bit m (8 * k + j))) ∧
  (∀ (size : Nat) (m : Memory) (p : Nat), p < size →
    (Memory.byte size m (byteIndex p)).getLsbD (bitIndex p) = Memory.bit m p) ∧
  (∀ p, byteIndex p = p / 8 ∧ bitIndex p = p % 8) ∧
  numBytes 1 = 1 ∧ numBytes 64 = 32 ∧ (∀ n ∈ legalLengths, 2 ≤ n → numBytes n = n / 2) ∧
  Memory.byte 256 [0] 0 = 0x01#8 ∧ Memory.byte 256 [7] 0 = 0x80#8

/-- R20: the `busy` output is 1 exactly in `BUSY`; in a good `IDLE` state the port shows `LFSR`, `CNT`, `POL` and every slot of `SEQ`, flat or by
bytes; a byte outside `[0, NB)` is refused. -/
def Obligations.ObservationPortShowsTheRegisters : Prop :=
  (∀ s : State, obsBusy s = true ↔ s.phase = .busy) ∧
  ∀ (s : State) (r : Regs), s.Inv → s.ctl = .idle r →
    obsLfsr s = .ok r.lfsr ∧
    (∃ c, obsCnt s = .ok c ∧ c.toNat = r.cnt) ∧
    obsPol s = .ok (BitVec.ofBool r.pol) ∧
    (∃ v, obsSeq s = .ok v ∧ ∀ p < 4 * s.cfg.n, v.getLsbD p = Memory.bit r.seq p) ∧
    (∀ k < numBytes s.cfg.n, obsSeqByte s k = .ok (Memory.byte (4 * s.cfg.n) r.seq k)) ∧
    ∀ k, numBytes s.cfg.n ≤ k → obsSeqByte s k = .error (.byteOutOfRange k)

/-- R13: `CNT` stays in `[0, 4N)`, which is what `CW` bits hold; a TICK increments it and wraps it at `4N`; RESET makes it
0; nothing else writes it. -/
def Obligations.CounterIsWrittenOnlyByTickAndReset : Prop :=
  ∀ (i : Instr) (s t : State) (q : Regs), s.Inv → exec i s = .next t → t.ctl = .idle q →
    q.cnt < 4 * s.cfg.n ∧ 4 * s.cfg.n = 2 ^ counterWidth s.cfg.n ∧
    (i = .reset → q.cnt = 0) ∧
    ∀ r, s.ctl = .idle r →
      (i = .tick → q.cnt = if r.cnt + 1 = 4 * s.cfg.n then 0 else r.cnt + 1) ∧
      (i ≠ .tick → i ≠ .reset → q.cnt = r.cnt)

/-- R14: `POL` flips exactly when an event is emitted, RESET sets it to `POL0`, and nothing else writes it. -/
def Obligations.PolarityFlipsExactlyOnActuation : Prop :=
  ∀ (i : Instr) (s t : State) (q : Regs), exec i s = .next t → t.ctl = .idle q →
    (i = .reset → q.pol = s.cfg.pol0) ∧
    ∀ r, s.ctl = .idle r → i ≠ .reset →
      (t.out.history = s.out.history ∧ q.pol = r.pol) ∨
      (t.out.history = s.out.history ++ [if r.pol then .B else .A] ∧ q.pol = !r.pol ∧ (i = .tick ∨ i = .pulse))

/-- 10_state.md section 1: which command may write which element.  `LFSR` changes only in STEP, BUILD, RESET and a window-end TICK;
`SEQ` only in the last three; no command leaves a drive signal at 1 that was 0, and none changes the configuration or the inputs to come. -/
def Obligations.EachElementIsWrittenOnlyByItsOwners : Prop :=
  (∀ (i : Instr) (s t : State), exec i s = .next t → t.cfg = s.cfg ∧ t.inputs = s.inputs) ∧
  ∀ (i : Instr) (s t : State) (r q : Regs), s.ctl = .idle r → exec i s = .next t →
    (t.out.coilA = true → s.out.coilA = true) ∧ (t.out.coilB = true → s.out.coilB = true) ∧
    (t.ctl = .idle q →
      (q.lfsr ≠ r.lfsr → i = .step ∨ i = .build ∨ i = .reset ∨ (i = .tick ∧ r.cnt + 1 = 4 * s.cfg.n)) ∧
      (q.seq ≠ r.seq → i = .build ∨ i = .reset ∨ (i = .tick ∧ r.cnt + 1 = 4 * s.cfg.n)))

/-- The invariant holds right after reset, and the reset state is the one RESET gives from power-up in the default
configuration: with the model's choice `SEED0 = 0x0001` (log entry 2) `LFSR = 0xEE1D` after 81 draws.  That
power-up starts with an empty history is the model's reading (DEDUCED, log entry 15). -/
def Obligations.ResetStateIsGoodAndIsWhatResetLeaves : Prop :=
  State.reset.Inv ∧
  exec .reset (State.powerUp Config.default) = .next State.reset ∧
  ∃ b, build 64 0x0001#16 = some b ∧ b.draws = 81 ∧ b.lfsr = 0xEE1D#16 ∧
    State.reset.ctl = .idle { lfsr := 0xEE1D#16, cnt := 0, pol := false, seq := b.seq }

/-- Every step keeps the invariant, from every state that has it. -/
def Obligations.EveryStepKeepsTheInvariant : Prop :=
  ∀ s t : State, s.Inv → step s = .next t → t.Inv

/-- R23: every `IDLE` state reached from a restart, by any step inputs, has exactly `N` distinct set slots below `4N`, a
nonzero `LFSR`, a counter below `4N` and both drive signals 0. -/
def Obligations.EveryIdleStateAfterRestartIsGood : Prop :=
  ∀ (s s₀ : State), s.cfg.seed0 ≠ 0#16 → exec .reset s = .next s₀ →
    ∀ (ws : List StepInput) (k : Nat) (t : State) (q : Regs),
      run k { s₀ with inputs := ws } = .next t → t.ctl = .idle q →
      Memory.popcount q.seq = t.cfg.n ∧ q.seq.Nodup ∧ (∀ p ∈ q.seq, p < 4 * t.cfg.n) ∧
      q.lfsr ≠ 0#16 ∧ q.cnt < 4 * t.cfg.n ∧ t.out.coilA = false ∧ t.out.coilB = false ∧ t.cfg = s.cfg

/-- 60_exceptions.md section 1, 20_memory.md section 3: no step faults in a good state.  The one fault is the model's choice
(DESIGN CHOICE, log entry 10): a TICK in an `IDLE` state whose counter is no slot, and there it always stops. -/
def Obligations.NoStepFaultsInAGoodState : Prop :=
  (∀ s : State, s.Inv → ∀ f, step s ≠ .fault f) ∧
  ∀ (i : Instr) (s : State) (f : Fault), exec i s = .fault f ↔
    i = .tick ∧ Legal s.cfg ∧ ∃ r, s.ctl = .idle r ∧ 4 * s.cfg.n ≤ r.cnt ∧ f = .slotOutOfRange r.cnt

/-- 42_scheduler.md section 2: from a good `IDLE` state the block runs on for ever: whatever step inputs are presented, none of them reserved,
every step completes, back in `IDLE` (a step with nothing presented too, DEDUCED, log entry 3). -/
def Obligations.IdleBlockRunsOnWhateverIsPresented : Prop :=
  ∀ (k : Nat) (s : State), s.Inv → s.phase = .idle → (∀ w ∈ s.inputs, (decode w).wellFormed = true) →
    SafeRun k s ∧ ∀ t, run k s = .next t → t.phase = .idle ∧ t.Inv

/-- 00_scope.md section 5, 70_reset_and_hazards.md section 1: the block is deterministic from a restart: whatever it was before, the same configuration and the same step inputs
give the same registers, the same phase and the same new events. -/
def Obligations.RunsAfterRestartForgetThePast : Prop :=
  ∀ (s₁ s₂ t₁ t₂ : State), s₁.cfg = s₂.cfg → s₁.inputs = s₂.inputs →
    exec .reset s₁ = .next t₁ → exec .reset s₂ = .next t₂ →
    ∀ (k : Nat) (u₁ : State), run k t₁ = .next u₁ →
      ∃ u₂ ev, run k t₂ = .next u₂ ∧ u₁.ctl = u₂.ctl ∧
        u₁.out.history = s₁.out.history ++ ev ∧ u₂.out.history = s₂.out.history ++ ev ∧
        u₁.out.coilA = u₂.out.coilA ∧ u₁.out.coilB = u₂.out.coilB
end

