-- ==== Sys2Proof/Laws/Ops.lean ====
section
/-! SUPPORT. One lemma per shared operation that says everything it can do; later proofs cite these and do not unfold the
operations. -/

namespace Sys2Proof.Laws

open Sys2Proof.Machine

/-- When a gated command runs, it runs its own effect. -/
theorem whenIdle_idle {s : State} {r : Regs} (hl : Legal s.cfg) (hc : s.ctl = .idle r)
    (k : Regs → Host.Outcome State Fault Refusal) : whenIdle s k = k r := by
  unfold whenIdle; rw [if_pos hl]; simp only [hc]

theorem whenIdle_uninit {s : State} (hl : Legal s.cfg) (hc : s.ctl = .uninit)
    (k : Regs → Host.Outcome State Fault Refusal) : whenIdle s k = .refused .uninitialised := by
  unfold whenIdle; rw [if_pos hl]; simp only [hc]

theorem whenIdle_busy {s : State} (hl : Legal s.cfg) (hc : s.ctl = .busy)
    (k : Regs → Host.Outcome State Fault Refusal) : whenIdle s k = .refused .busyOverrun := by
  unfold whenIdle; rw [if_pos hl]; simp only [hc]

theorem whenIdle_illegal {s : State} (hl : ¬Legal s.cfg) (k : Regs → Host.Outcome State Fault Refusal) :
    whenIdle s k = .refused .illegalConfig := by
  unfold whenIdle; rw [if_neg hl]

/-- A gated command that answers a next state found the block idle and legal. -/
theorem whenIdle_next {s t : State} {k : Regs → Host.Outcome State Fault Refusal} (h : whenIdle s k = .next t) :
    Legal s.cfg ∧ ∃ r, s.ctl = .idle r ∧ k r = .next t := by
  unfold whenIdle at h
  split at h
  · rename_i hl
    split at h
    · cases h
    · cases h
    · rename_i r hc
      exact ⟨hl, r, hc, h⟩
  · cases h

/-- A gated command that faults found the block idle and legal. -/
theorem whenIdle_fault {s : State} {f : Fault} {k : Regs → Host.Outcome State Fault Refusal}
    (h : whenIdle s k = .fault f) : Legal s.cfg ∧ ∃ r, s.ctl = .idle r ∧ k r = .fault f := by
  unfold whenIdle at h
  split at h
  · rename_i hl
    split at h
    · cases h
    · cases h
    · rename_i r hc
      exact ⟨hl, r, hc, h⟩
  · cases h

/-- A build inside an operation always answers a next state: the completed one, or the one that stays `BUSY`. -/
theorem runBuild_cases (s : State) (r : Regs) (o : Outputs) :
    (∃ b, build s.cfg.n r.lfsr = some b ∧
      runBuild s r o = .next (s.toIdle { r with lfsr := b.lfsr, seq := b.seq } o)) ∨
    (build s.cfg.n r.lfsr = none ∧ runBuild s r o = .next (s.toBusy o)) := by
  unfold runBuild
  cases h : build s.cfg.n r.lfsr with
  | none => exact .inr ⟨rfl, rfl⟩
  | some b => exact .inl ⟨b, rfl, rfl⟩

theorem runBuild_some {s : State} {r : Regs} {o : Outputs} {b : BuildResult} (h : build s.cfg.n r.lfsr = some b) :
    runBuild s r o = .next (s.toIdle { r with lfsr := b.lfsr, seq := b.seq } o) := by
  unfold runBuild; rw [h]

theorem runBuild_none {s : State} {r : Regs} {o : Outputs} (h : build s.cfg.n r.lfsr = none) :
    runBuild s r o = .next (s.toBusy o) := by
  unfold runBuild; rw [h]

theorem fetch_nil {s : State} (h : s.inputs = []) : fetch s = none := by
  unfold fetch; rw [h]

theorem fetch_cons {s : State} {w : StepInput} {rest : List StepInput} (h : s.inputs = w :: rest) :
    fetch s = some (w, { s with inputs := rest }) := by
  unfold fetch; rw [h]

/-- The three equations of the build loop: it is done, the draw collides, the draw sets a slot. -/
theorem buildLoop_done {n fuel count draws : Nat} {seq : Memory} {lfsr : Word} (h : ¬count < n) :
    buildLoop n fuel count draws seq lfsr = some { seq := seq, lfsr := lfsr, draws := draws } := by
  cases fuel <;> simp [buildLoop, h]

theorem buildLoop_collide {n fuel count draws : Nat} {seq : Memory} {lfsr : Word} (h : count < n)
    (hb : Memory.bit seq (candidate n (Lfsr.next lfsr)) = true) :
    buildLoop n (fuel + 1) count draws seq lfsr = buildLoop n fuel count (draws + 1) seq (Lfsr.next lfsr) := by
  simp [buildLoop, h, Lfsr.draw, hb]

theorem buildLoop_set {n fuel count draws : Nat} {seq : Memory} {lfsr : Word} (h : count < n)
    (hb : Memory.bit seq (candidate n (Lfsr.next lfsr)) = false) :
    buildLoop n (fuel + 1) count draws seq lfsr =
      buildLoop n fuel (count + 1) (draws + 1) (Memory.set seq (candidate n (Lfsr.next lfsr))) (Lfsr.next lfsr) := by
  simp [buildLoop, h, Lfsr.draw, hb]

theorem buildLoop_out_of_fuel {n count draws : Nat} {seq : Memory} {lfsr : Word} (h : count < n) :
    buildLoop n 0 count draws seq lfsr = none := by
  simp [buildLoop, h]

/-- What a TICK's lookup can answer. -/
theorem tickLookup_cases (s : State) (r : Regs) :
    (slots s.cfg.n ≤ r.cnt ∧ tickLookup s r = none) ∨
    (r.cnt < slots s.cfg.n ∧ Memory.bit r.seq r.cnt = true ∧ tickLookup s r = some (pulse r s.out)) ∨
    (r.cnt < slots s.cfg.n ∧ Memory.bit r.seq r.cnt = false ∧ tickLookup s r = some (r, s.out)) := by
  unfold tickLookup Memory.read
  by_cases hc : r.cnt < slots s.cfg.n
  · cases hb : Memory.bit r.seq r.cnt <;> simp [hc]
  · simp [hc]; omega

/-- What a TICK's increment can answer. -/
theorem tickAdvance_cases (s : State) (r : Regs) (o : Outputs) :
    (r.cnt + 1 = slots s.cfg.n ∧ tickAdvance s r o = runBuild s { r with cnt := 0 } o) ∨
    (r.cnt + 1 ≠ slots s.cfg.n ∧ tickAdvance s r o = .next (s.toIdle { r with cnt := r.cnt + 1 } o)) := by
  unfold tickAdvance
  by_cases h : r.cnt + 1 = slots s.cfg.n <;> simp [h]

end Sys2Proof.Laws
end

