-- ==== Sys2Proof/Laws/Exec.lean ====
section
/-! SUPPORT. What each arm of `exec` is, once the gate is passed: the shared operation it calls. -/

namespace Sys2Proof.Laws

open Sys2Proof.Machine

variable {s : State} {r : Regs}

/-- BUILD in an idle block is the build inside an operation, with the registers as they are. -/
theorem exec_build_idle (hl : Legal s.cfg) (hc : s.ctl = .idle r) : exec .build s = runBuild s r s.out := by
  show execBuild s = _
  unfold execBuild
  rw [whenIdle_idle hl hc]

/-- TICK in an idle block whose counter is a slot: the lookup's result, then the increment. -/
theorem exec_tick_idle (hl : Legal s.cfg) (hc : s.ctl = .idle r) {after : Regs × Outputs}
    (ha : tickLookup s r = some after) : exec .tick s = tickAdvance s after.1 after.2 := by
  show execTick s = _
  unfold execTick
  rw [whenIdle_idle hl hc]
  simp only [ha]

/-- RESET in any phase is the build inside an operation, from the restart registers. -/
theorem exec_reset_legal (hl : Legal s.cfg) : exec .reset s = runBuild s (restartRegs s.cfg) s.out.release := by
  show execReset s = _
  unfold execReset
  rw [if_pos hl]

/-- A command that answers a next state, other than RESET, found the block idle. -/
theorem exec_next_idle {i : Instr} {t : State} (h : exec i s = .next t) :
    Legal s.cfg ∧ (i = .reset ∨ ∃ r, s.ctl = .idle r) := by
  cases i with
  | reset =>
    change execReset s = _ at h
    unfold execReset at h
    split at h
    · rename_i hl; exact ⟨hl, .inl rfl⟩
    · cases h
  | nop => obtain ⟨hl, r, hc, -⟩ := whenIdle_next (s := s) h; exact ⟨hl, .inr ⟨r, hc⟩⟩
  | tick => obtain ⟨hl, r, hc, -⟩ := whenIdle_next (s := s) h; exact ⟨hl, .inr ⟨r, hc⟩⟩
  | step => obtain ⟨hl, r, hc, -⟩ := whenIdle_next (s := s) h; exact ⟨hl, .inr ⟨r, hc⟩⟩
  | build => obtain ⟨hl, r, hc, -⟩ := whenIdle_next (s := s) h; exact ⟨hl, .inr ⟨r, hc⟩⟩
  | pulse => obtain ⟨hl, r, hc, -⟩ := whenIdle_next (s := s) h; exact ⟨hl, .inr ⟨r, hc⟩⟩
  | reserved0101 => cases h
  | reserved0110 => cases h
  | reserved0111 => cases h

end Sys2Proof.Laws
end

