-- ==== Sys2Proof/Laws/Memory.lean ====
section
/-! SUPPORT. The laws of the store `SEQ`: what a write leaves at every slot, that every operation keeps the canonical form,
and that the canonical form makes equal stores equal lists. -/

namespace Sys2Proof.Laws

open Sys2Proof.Machine

@[simp] theorem bit_cleared (p : Nat) : Memory.bit Memory.cleared p = false := rfl

theorem bit_eq_true_iff (m : Memory) (p : Nat) : Memory.bit m p = true ↔ p ∈ m := by
  simp [Memory.bit]

theorem mem_set (m : Memory) (p q : Nat) : q ∈ Memory.set m p ↔ q = p ∨ q ∈ m := by
  induction m with
  | nil => simp [Memory.set]
  | cons a rest ih =>
    unfold Memory.set
    split
    · simp
    · split
      · subst_vars; simp
      · simp only [List.mem_cons, ih]; tauto

theorem mem_unset (m : Memory) (p q : Nat) : q ∈ Memory.unset m p ↔ q ∈ m ∧ q ≠ p := by
  simp [Memory.unset]

/-- Writing 1 to `p`: `p` reads 1 and every other slot reads as before. -/
theorem bit_set (m : Memory) (p q : Nat) : Memory.bit (Memory.set m p) q = (decide (q = p) || Memory.bit m q) := by
  rw [Bool.eq_iff_iff]; simp [bit_eq_true_iff, mem_set]

/-- Writing 0 to `p`: `p` reads 0 and every other slot reads as before. -/
theorem bit_unset (m : Memory) (p q : Nat) :
    Memory.bit (Memory.unset m p) q = (Memory.bit m q && !decide (q = p)) := by
  rw [Bool.eq_iff_iff]; simp [bit_eq_true_iff, mem_unset]

theorem cleared_wf (size : Nat) : Memory.wf size Memory.cleared := by
  simp [Memory.wf, Memory.cleared]

theorem set_wf {size : Nat} {m : Memory} (h : Memory.wf size m) {p : Nat} (hp : p < size) :
    Memory.wf size (Memory.set m p) := by
  refine ⟨?_, fun q hq => ?_⟩
  · have hs := h.1
    clear h hp
    induction m with
    | nil => simp [Memory.set]
    | cons a rest ih =>
      unfold Memory.set
      rw [List.pairwise_cons] at hs
      split
      · rename_i hlt
        refine List.pairwise_cons.2 ⟨fun q hq => ?_, List.pairwise_cons.2 hs⟩
        rcases List.mem_cons.1 hq with rfl | hq
        · exact hlt
        · exact hlt.trans (hs.1 q hq)
      · split
        · exact List.pairwise_cons.2 hs
        · refine List.pairwise_cons.2 ⟨fun q hq => ?_, ih hs.2⟩
          rcases (mem_set rest p q).1 hq with rfl | hq
          · omega
          · exact hs.1 q hq
  · rcases (mem_set m p q).1 hq with rfl | hq
    · exact hp
    · exact h.2 q hq

theorem unset_wf {size : Nat} {m : Memory} (h : Memory.wf size m) (p : Nat) :
    Memory.wf size (Memory.unset m p) :=
  ⟨h.1.filter _, fun q hq => h.2 q ((mem_unset m p q).1 hq).1⟩

/-- Every write keeps the canonical form. -/
theorem write_wf {size : Nat} {m m' : Memory} (h : Memory.wf size m) {p : Nat} {b : Bool}
    (hw : Memory.write size m p b = some m') : Memory.wf size m' := by
  unfold Memory.write at hw
  split at hw
  · rename_i hp
    cases hw
    cases b
    · exact unset_wf h p
    · exact set_wf h hp
  · cases hw

theorem read_some_iff (size : Nat) (m : Memory) (p : Nat) (b : Bool) :
    Memory.read size m p = some b ↔ p < size ∧ Memory.bit m p = b := by
  unfold Memory.read; split <;> simp [*]

theorem read_none_iff (size : Nat) (m : Memory) (p : Nat) : Memory.read size m p = none ↔ size ≤ p := by
  unfold Memory.read; split <;> simp [*]; omega

/-- What a read gives after a write, at every slot. -/
theorem read_write {size : Nat} {m m' : Memory} {p : Nat} {b : Bool} (hw : Memory.write size m p b = some m')
    (q : Nat) : Memory.read size m' q = if q = p then some b else Memory.read size m q := by
  unfold Memory.write at hw
  split at hw
  · rename_i hp
    cases hw
    unfold Memory.read
    cases b <;> by_cases hq : q = p <;> simp [hq, hp, bit_set, bit_unset]
  · cases hw

/-- In canonical form the list is determined by the bits. -/
theorem wf_ext {size : Nat} {m m' : Memory} (h : Memory.wf size m) (h' : Memory.wf size m')
    (hb : ∀ p, Memory.bit m p = Memory.bit m' p) : m = m' := by
  refine List.Perm.eq_of_pairwise (fun a b _ _ hab hba => absurd (Nat.lt_trans hab hba) (Nat.lt_irrefl a)) h.1 h'.1 ?_
  refine (List.perm_ext_iff_of_nodup ?_ ?_).2 fun p => ?_
  · exact h.1.imp fun hlt => Nat.ne_of_lt hlt
  · exact h'.1.imp fun hlt => Nat.ne_of_lt hlt
  · rw [← bit_eq_true_iff, ← bit_eq_true_iff, hb p]

/-- Setting a clear slot adds one to the population count. -/
theorem popcount_set_of_clear {m : Memory} {p : Nat} (h : Memory.bit m p = false) :
    Memory.popcount (Memory.set m p) = Memory.popcount m + 1 := by
  have hp : p ∉ m := by rw [← bit_eq_true_iff]; simp [h]
  unfold Memory.popcount
  clear h
  induction m with
  | nil => simp [Memory.set]
  | cons a rest ih =>
    simp only [List.mem_cons, not_or] at hp
    unfold Memory.set
    split
    · simp
    · simp [hp.1, ih hp.2]

/-- The clear of R51 step 1 done slot by slot, from any store in canonical form, leaves the cleared store. -/
theorem unset_all_eq_cleared {size : Nat} {m : Memory} (h : Memory.wf size m) :
    (List.range size).foldl Memory.unset m = Memory.cleared := by
  have key : ∀ (ps : List Nat) (m : Memory) (q : Nat), q ∈ ps.foldl Memory.unset m ↔ q ∈ m ∧ q ∉ ps := by
    intro ps
    induction ps with
    | nil => simp
    | cons p ps ih => intro m q; simp only [List.foldl_cons, ih, mem_unset, List.mem_cons]; tauto
  refine List.eq_nil_iff_forall_not_mem.2 fun q hq => ?_
  have := (key _ _ _).1 hq
  exact this.2 (List.mem_range.2 (h.2 q this.1))

/-- A candidate slot is a slot: a masked draw cannot be out of range (R29). -/
theorem candidate_lt {n : Nat} (hn : 0 < n) (d : Word) : candidate n d < slots n := by
  unfold candidate slotMask slots
  have := Nat.and_le_right (n := d.toNat) (m := 4 * n - 1)
  omega

/-- The build's collision check is a `MemRead` of the candidate slot, which always exists (R28, R29). -/
theorem read_candidate {n : Nat} (hn : 0 < n) (m : Memory) (d : Word) :
    Memory.read (slots n) m (candidate n d) = some (Memory.bit m (candidate n d)) := by
  simp [Memory.read, candidate_lt hn d]

/-- The build's setting of a slot is a `MemWrite` of 1 to the candidate slot, which always exists (R28, R29). -/
theorem write_candidate {n : Nat} (hn : 0 < n) (m : Memory) (d : Word) :
    Memory.write (slots n) m (candidate n d) true = some (Memory.set m (candidate n d)) := by
  simp [Memory.write, candidate_lt hn d]

end Sys2Proof.Laws
end

