-- ==== Sys2Proof/Laws/PerInstr.lean ====
section
/-! SUPPORT. The per-command family `Encodes`: the encoder's word lies in the command's own row of the table and in no
other row. -/

namespace Sys2Proof.Laws.Encodes

/-- The rows of the command table that the command's word matches are exactly the command's own. -/
def Statement (i : Instr) : Prop :=
  (opcodeRows.filter (fun row => row.matchesWord (encode i))).map OpcodeRow.instr = [i]

theorem reset : Statement .reset := by unfold Statement; decide
theorem nop : Statement .nop := by unfold Statement; decide
theorem tick : Statement .tick := by unfold Statement; decide
theorem step : Statement .step := by unfold Statement; decide
theorem build : Statement .build := by unfold Statement; decide
theorem pulse : Statement .pulse := by unfold Statement; decide
theorem reserved0101 : Statement .reserved0101 := by unfold Statement; decide
theorem reserved0110 : Statement .reserved0110 := by unfold Statement; decide
theorem reserved0111 : Statement .reserved0111 := by unfold Statement; decide

end Sys2Proof.Laws.Encodes
end

