-- ==== Sys2Proof/Laws/Run.lean ====
section
/-! SUPPORT. The equations of a run and of one step. -/

namespace Sys2Proof.Laws

open Sys2Proof.Machine

@[simp] theorem run_zero (s : State) : run 0 s = .next s := rfl

/-- A run is its first step and then the rest. -/
theorem run_succ (k : Nat) (s : State) :
    run (k + 1) s = match step s with
      | .next t => run k t
      | .fault f => .fault f
      | .refused r => .refused r := rfl

theorem run_succ_next {k : Nat} {s t : State} (h : step s = .next t) : run (k + 1) s = run k t := by
  rw [run_succ, h]

/-- A run of `k + 1` steps that answers a next state took one step and then `k` more. -/
theorem run_succ_inv {k : Nat} {s u : State} (h : run (k + 1) s = .next u) :
    ∃ t, step s = .next t ∧ run k t = .next u := by
  rw [run_succ] at h
  split at h
  · rename_i t hs; exact ⟨t, hs, h⟩
  · cases h
  · cases h

/-- The run statements speak of is the host's run of the machine behind its interface. -/
theorem core_run_eq (k : Nat) (s : State) : Sys2Proof.core.run k s = run k s := by
  induction k generalizing s with
  | zero => rfl
  | succ k ih =>
    rw [run_succ]
    cases h : step s with
    | next t =>
      refine Eq.trans ?_ (ih t)
      have hs : Sys2Proof.core.step s = .next t := h
      simp only [Host.Core.run]; rw [hs]
    | fault f =>
      have hs : Sys2Proof.core.step s = .fault f := h
      simp only [Host.Core.run]; rw [hs]; rfl
    | refused r =>
      have hs : Sys2Proof.core.step s = .refused r := h
      simp only [Host.Core.run]; rw [hs]; rfl

/-- A step answers a next state in two ways: nothing was presented, or the presented command ran. -/
theorem step_next_cases {s t : State} (h : step s = .next t) :
    (s.inputs = [] ∧ Legal s.cfg ∧ t = s) ∨
    ∃ w rest, s.inputs = w :: rest ∧ exec (decode w) { s with inputs := rest } = .next t := by
  unfold step fetch at h
  cases hi : s.inputs with
  | nil =>
    rw [hi] at h
    simp only [noInput] at h
    split at h
    · rename_i hl; cases h; exact .inl ⟨rfl, hl, rfl⟩
    · cases h
  | cons w rest =>
    rw [hi] at h
    exact .inr ⟨w, rest, rfl, h⟩

end Sys2Proof.Laws
end

