-- ==== Sys2Proof/Laws/State.lean ====
section
/-! SUPPORT. One lemma per field per update of the state, the outputs and the registers, so that no later proof unfolds a
record update. -/

namespace Sys2Proof.Laws

open Sys2Proof.Machine

variable (s : State) (r : Regs) (o : Outputs) (t : Terminal) (b : Bool) (d : Nat)

@[simp] theorem toIdle_cfg : (s.toIdle r o).cfg = s.cfg := rfl
@[simp] theorem toIdle_ctl : (s.toIdle r o).ctl = .idle r := rfl
@[simp] theorem toIdle_out : (s.toIdle r o).out = o := rfl
@[simp] theorem toIdle_inputs : (s.toIdle r o).inputs = s.inputs := rfl
@[simp] theorem toIdle_phase : (s.toIdle r o).phase = .idle := rfl

@[simp] theorem toBusy_cfg : (s.toBusy o).cfg = s.cfg := rfl
@[simp] theorem toBusy_ctl : (s.toBusy o).ctl = .busy := rfl
@[simp] theorem toBusy_out : (s.toBusy o).out = o := rfl
@[simp] theorem toBusy_inputs : (s.toBusy o).inputs = s.inputs := rfl
@[simp] theorem toBusy_phase : (s.toBusy o).phase = .busy := rfl

/-- Returning to the registers and outputs an idle state already has changes nothing. -/
theorem toIdle_self (h : s.ctl = .idle r) : s.toIdle r s.out = s := by
  cases s; simp only at h; subst h; rfl

theorem phase_eq_idle_iff : s.phase = .idle ↔ ∃ r, s.ctl = .idle r := by
  unfold State.phase; split <;> simp_all

theorem phase_eq_busy_iff : s.phase = .busy ↔ s.ctl = .busy := by
  unfold State.phase; split <;> simp_all

theorem phase_eq_uninit_iff : s.phase = .uninit ↔ s.ctl = .uninit := by
  unfold State.phase; split <;> simp_all

@[simp] theorem drive_A_coilA : (o.drive .A b).coilA = b := rfl
@[simp] theorem drive_A_coilB : (o.drive .A b).coilB = o.coilB := rfl
@[simp] theorem drive_B_coilA : (o.drive .B b).coilA = o.coilA := rfl
@[simp] theorem drive_B_coilB : (o.drive .B b).coilB = b := rfl
@[simp] theorem drive_history : (o.drive t b).history = o.history := by cases t <;> rfl

@[simp] theorem release_coilA : o.release.coilA = false := rfl
@[simp] theorem release_coilB : o.release.coilB = false := rfl
@[simp] theorem release_history : o.release.history = o.history := rfl

@[simp] theorem hold_eq : o.hold d = o := rfl

@[simp] theorem emit_coilA : (o.emit t).coilA = o.coilA := rfl
@[simp] theorem emit_coilB : (o.emit t).coilB = o.coilB := rfl
@[simp] theorem emit_history : (o.emit t).history = o.history ++ [t] := rfl

@[simp] theorem pulse_fst_lfsr : (pulse r o).1.lfsr = r.lfsr := rfl
@[simp] theorem pulse_fst_cnt : (pulse r o).1.cnt = r.cnt := rfl
@[simp] theorem pulse_fst_pol : (pulse r o).1.pol = !r.pol := rfl
@[simp] theorem pulse_fst_seq : (pulse r o).1.seq = r.seq := rfl
@[simp] theorem pulse_snd : (pulse r o).2 = o.pulse (terminalOf r.pol) := rfl

@[simp] theorem outputs_pulse_history : (o.pulse t).history = o.history ++ [t] := by cases t <;> rfl

@[simp] theorem terminalOf_false : terminalOf false = .A := rfl
@[simp] theorem terminalOf_true : terminalOf true = .B := rfl

end Sys2Proof.Laws
end

