-- ==== Sys2Proof/Tests/Slice0.lean ====
section
/-! SUPPORT. The model's own tests.  Every expected value is one of spec/95_test_vectors.md (named V-…) or of a worked
example of the rule cited.  The second half shows, for every statement with hypotheses, a state that meets them. -/

namespace Sys2Proof.Tests

open Sys2Proof.Machine

/-! Helpers: a configuration, an idle state, and what an outcome holds. -/

def cfgOf (n : Nat) (seed : Word) : Config := { n := n, seed0 := seed, pol0 := false }

def idleState (n : Nat) (r : Regs) : State :=
  { cfg := cfgOf n 0x0001#16, ctl := .idle r, out := Outputs.quiet, inputs := [] }

def afterNext : Host.Outcome State Fault Refusal → Option State
  | .next t => some t
  | .fault _ => none
  | .refused _ => none

def whyRefused : Host.Outcome State Fault Refusal → Option Refusal
  | .next _ => none
  | .fault _ => none
  | .refused w => some w

def whyFault : Host.Outcome State Fault Refusal → Option Fault
  | .next _ => none
  | .fault f => some f
  | .refused _ => none

/-- The control state, the history and the coil outputs after an outcome. -/
def shown (o : Host.Outcome State Fault Refusal) : Option (Control × List Terminal × Bool × Bool) :=
  (afterNext o).map fun t => (t.ctl, t.out.history, t.out.coilA, t.out.coilB)

/-! WellFormed and the other checks refuse an ill-formed term. -/

theorem test_reserved_is_not_well_formed :
    [Instr.reserved0101, .reserved0110, .reserved0111].map Instr.wellFormed = [false, false, false] := by decide

theorem test_reserved_line_is_not_well_formed : (AsmLine.command .reserved0110).wellFormed = false := by decide

/-- V-X4. -/
theorem test_illegal_configs_refused :
    ¬Legal (cfgOf 3 1#16) ∧ ¬Legal (cfgOf 32768 1#16) ∧ ¬Legal (cfgOf 0 1#16) ∧ ¬Legal (cfgOf 64 0#16) := by decide

theorem test_legal_configs : Legal (cfgOf 1 1#16) ∧ Legal (cfgOf 16384 1#16) ∧ Legal Config.default := by decide

theorem test_memory_form_refuses : ¬Memory.wf 16 [4, 2] ∧ ¬Memory.wf 16 [2, 2] ∧ ¬Memory.wf 16 [16] := by decide

/-! Decoding: each word written out from R37's table. -/

theorem test_decode_reset : [0b1000#4, 0b1001#4, 0b1010#4, 0b1111#4].map decode = [.reset, .reset, .reset, .reset] := by
  decide
theorem test_decode_nop : decode 0b0000#4 = .nop := by decide
theorem test_decode_tick : decode 0b0001#4 = .tick := by decide
theorem test_decode_step : decode 0b0010#4 = .step := by decide
theorem test_decode_build : decode 0b0011#4 = .build := by decide
theorem test_decode_pulse : decode 0b0100#4 = .pulse := by decide
theorem test_decode_reserved :
    [0b0101#4, 0b0110#4, 0b0111#4].map decode = [.reserved0101, .reserved0110, .reserved0111] := by decide
theorem test_decode_too_wide : decodeWord 16 = .error (.widerThanIN4 16) ∧ decodeTableWord 8 0x1F = none := by decide
theorem test_decode_table_word : decodeTableWord 8 3 = some .build ∧ decodeTableWord 4 0xD = some .reset := by decide
theorem test_rows_do_not_overlap :
    opcodeRows.Pairwise fun a b => ∀ w : StepInput, (a.matchesWord w && b.matchesWord w) = false := by decide

/-! The generator: V-L1 to V-L6. -/

theorem test_next_values :
    ([0x0001, 0x0000, 0xACE1, 0x0004, 0x0008, 0x000C, 0x0020, 0x002D, 0x8000, 0x1234, 0x5670, 0xFFFF, 0xFFFE, 0x7FFF]
      : List Word).map Lfsr.next =
    [0x8000, 0x0000, 0x5670, 0x8002, 0x8004, 0x0006, 0x8010, 0x0016, 0x4000, 0x091A, 0xAB38, 0x7FFF, 0xFFFF, 0x3FFF] := by
  decide

theorem test_prev_values :
    ([0x8000, 0x5670, 0xD002, 0x0001, 0x7FFF, 0xFFFF] : List Word).map Lfsr.prev =
    [0x0001, 0xACE1, 0xA004, 0x0002, 0xFFFF, 0xFFFE] := by decide

theorem test_next_powers :
    Lfsr.next^[15] 0x0001#16 = 0xD002#16 ∧ Lfsr.next^[16] 0x0001#16 = 0x6801#16 ∧
    Lfsr.next^[100] 0x0001#16 = 0xFCE5#16 := by decide +kernel

/-! The build: V-B1 to V-B5, V-B7 to V-B13, V-B15. -/

theorem test_build_small :
    build 1 0x0001#16 = some ⟨[0], 0x8000#16, 1⟩ ∧ build 4 0x0001#16 = some ⟨[0, 2, 4, 8], 0xD002#16, 15⟩ ∧
    build 2 0x0001#16 = some ⟨[0, 4], 0xA004#16, 14⟩ ∧ build 4 0xACE1#16 = some ⟨[0, 8, 12, 14], 0x2ACE#16, 4⟩ ∧
    build 4 0xD002#16 = some ⟨[0, 1, 4, 8], 0x20B4#16, 10⟩ ∧ build 1 0x0000#16 = some ⟨[0], 0x0000#16, 1⟩ := by
  decide +kernel

theorem test_build_worst_cases :
    build 2 0xFFFE#16 = some ⟨[3, 7], 0x6003#16, 15⟩ ∧ build 4 0x2493#16 = some ⟨[1, 2, 4, 9], 0x4001#16, 16⟩ ∧
    build 8 0x0001#16 = some ⟨[0, 1, 2, 4, 8, 16, 20, 26], 0x105A#16, 26⟩ := by decide +kernel

theorem test_build_64_bytes :
    (build 64 0x0001#16).map (fun b => ((List.range 32).map (Memory.byte 256 b.seq), b.lfsr, b.draws)) =
    some ([0x37, 0x09, 0x51, 0x20, 0x05, 0xA1, 0x00, 0x08, 0x33, 0x00, 0x02, 0x4C, 0x04, 0x89, 0x84, 0x0A, 0x05, 0x0D,
      0x82, 0x00, 0x05, 0x20, 0xB2, 0x32, 0x20, 0x09, 0x41, 0x51, 0x30, 0x50, 0x44, 0x00], 0xEE1D#16, 81) := by
  decide +kernel

theorem test_build_64_other_seed :
    (build 64 0xACE1#16).map (fun b => ((List.range 32).map (Memory.byte 256 b.seq), b.lfsr, b.draws)) =
    some ([0x24, 0x24, 0x21, 0x18, 0x06, 0x0C, 0x80, 0x0B, 0xA9, 0x00, 0xE0, 0x42, 0x80, 0x40, 0x9F, 0x01, 0x42, 0x45,
      0x02, 0x30, 0x08, 0x98, 0x08, 0x15, 0x90, 0x41, 0x02, 0x30, 0x9C, 0x41, 0x02, 0x00], 0x9440#16, 69) := by
  decide +kernel

/-- V-B2, V-B11: the flat vector and the bytes. -/
theorem test_views :
    Memory.vector 16 [0, 2, 4, 8] = 0x0115#16 ∧ [0, 1].map (Memory.byte 16 [0, 2, 4, 8]) = [0x15#8, 0x01#8] ∧
    Memory.byte 4 [3] 0 = 0x08#8 ∧ numBytes 64 = 32 ∧ numBytes 4 = 2 ∧ numBytes 1 = 1 := by decide

/-! One step of each command. -/

/-- V-S1. -/
theorem test_step_command :
    shown (exec .step (idleState 4 ⟨0xACE1#16, 7, true, [0, 8, 12, 14]⟩)) =
      some (.idle ⟨0x5670#16, 7, true, [0, 8, 12, 14]⟩, [], false, false) := by decide

/-- V-B6. -/
theorem test_build_command :
    shown (exec .build (idleState 4 ⟨0x8AB3#16, 0, true, [0, 8, 12, 14]⟩)) =
      some (.idle ⟨0xC8AB#16, 0, true, [6, 9, 11, 12]⟩, [], false, false) := by decide +kernel

/-- V-T2. -/
theorem test_tick_set_slot :
    shown (exec .tick (idleState 4 ⟨0xD002#16, 2, true, [0, 2, 4, 8]⟩)) =
      some (.idle ⟨0xD002#16, 3, false, [0, 2, 4, 8]⟩, [.B], false, false) := by decide

/-- V-T3. -/
theorem test_tick_clear_slot :
    shown (exec .tick (idleState 4 ⟨0xD002#16, 1, true, [0, 2, 4, 8]⟩)) =
      some (.idle ⟨0xD002#16, 2, true, [0, 2, 4, 8]⟩, [], false, false) := by decide

/-- V-T6, tick 16: the pulse comes before the rebuild. -/
theorem test_tick_window_end :
    shown (exec .tick (idleState 4 ⟨0xA001#16, 15, true, [1, 3, 7, 15]⟩)) =
      some (.idle ⟨0x101A#16, 0, false, [0, 4, 8, 10]⟩, [.B], false, false) := by decide +kernel

/-- V-T7. -/
theorem test_tick_window_end_N1 :
    shown (exec .tick (idleState 1 ⟨0x8000#16, 3, true, [0]⟩)) =
      some (.idle ⟨0x4000#16, 0, true, [0]⟩, [], false, false) := by decide +kernel

/-- R13, R29: a counter that is no slot stops the TICK. -/
theorem test_tick_out_of_range :
    whyFault (exec .tick (idleState 4 ⟨0xD002#16, 16, true, [0, 2, 4, 8]⟩)) = some (.slotOutOfRange 16) := by decide

/-- V-N1. -/
theorem test_nop :
    shown (exec .nop (idleState 4 ⟨0xD002#16, 5, true, [0, 2, 4, 8]⟩)) =
      some (.idle ⟨0xD002#16, 5, true, [0, 2, 4, 8]⟩, [], false, false) := by decide

/-- V-P1, V-P2. -/
theorem test_pulse_command :
    shown (exec .pulse (idleState 4 ⟨0xD002#16, 5, false, [0]⟩)) =
      some (.idle ⟨0xD002#16, 5, true, [0]⟩, [.A], false, false) ∧
    shown (exec .pulse (idleState 4 ⟨0xD002#16, 5, true, [0]⟩)) =
      some (.idle ⟨0xD002#16, 5, false, [0]⟩, [.B], false, false) := by decide

/-- V-R1, V-R2: RESET from power-up. -/
theorem test_reset :
    shown (exec .reset (State.powerUp (cfgOf 4 0x0001#16))) =
      some (.idle ⟨0xD002#16, 0, false, [0, 2, 4, 8]⟩, [], false, false) ∧
    shown (exec .reset (State.powerUp (cfgOf 1 0x0001#16))) =
      some (.idle ⟨0x8000#16, 0, false, [0]⟩, [], false, false) := by decide +kernel

/-- V-R8, V-R6: RESET while a pulse is in progress releases the coil, appends nothing, keeps the history. -/
theorem test_reset_during_pulse :
    shown (exec .reset
      { cfg := cfgOf 4 0x0001#16, ctl := .busy, out := { coilA := true, coilB := false, history := [.A, .B] },
        inputs := [] }) =
      some (.idle ⟨0xD002#16, 0, false, [0, 2, 4, 8]⟩, [.A, .B], false, false) := by decide +kernel

/-- V-X1, V-X2, V-X3: the refusals, each by its own name. -/
theorem test_refusals :
    whyRefused (exec .reserved0110 State.reset) = some (.reservedInput 0b0110#4) ∧
    whyRefused (exec .tick (State.powerUp (cfgOf 4 1#16))) = some .uninitialised ∧
    whyRefused (exec .tick { State.powerUp (cfgOf 4 1#16) with ctl := .busy }) = some .busyOverrun ∧
    whyRefused (exec .reset (State.powerUp (cfgOf 3 1#16))) = some .illegalConfig := by decide +kernel

/-! A step fetches, decodes and runs; the state after reset. -/

/-- V-R3, and the first step after it: slot 0 is set. -/
theorem test_first_step_after_reset :
    (afterNext (step (State.reset.withFetchWord 8 1))).map (fun t => (t.phase, t.out.history, t.inputs)) =
      some (.idle, [.A], []) ∧
    obsLfsr State.reset = .ok 0xEE1D#16 := by decide +kernel

/-- P1, its first TICKs: `RESET; TICK` from power-up with `N = 1`. -/
theorem test_step_from_power_up :
    shown (run 2 { State.powerUp (cfgOf 1 0x0001#16) with inputs := [0x8#4, 0x1#4] }) =
      some (.idle ⟨0x8000#16, 1, true, [0]⟩, [.A], false, false) := by decide +kernel

/-- V-X5 and the port in `IDLE`. -/
theorem test_observation :
    obsSeqByte (idleState 4 ⟨0xD002#16, 2, true, [0, 2, 4, 8]⟩) 1 = .ok 0x01#8 ∧
    obsSeqByte (idleState 4 ⟨0xD002#16, 2, true, [0, 2, 4, 8]⟩) 2 = .error (.byteOutOfRange 2) ∧
    obsSeq (idleState 4 ⟨0xD002#16, 2, true, [0, 2, 4, 8]⟩) = .ok 0x0115#16 ∧
    obsPol (State.powerUp (cfgOf 4 1#16)) = .error .uninitialised := by decide

/-! The program notation. -/

/-- P3's text and its encoding `8 2 2 4 3 1`; mnemonics in either case, a comment, an empty line. -/
theorem test_assemble_P3 :
    ((parseLines [['R', 'E', 'S', 'E', 'T', ' ', ';', '8'], ['s', 't', 'e', 'p'], [], ['S', 'T', 'E', 'P'],
      [' ', 'P', 'u', 'l', 's', 'e'], ['B', 'U', 'I', 'L', 'D'], ['T', 'I', 'C', 'K']]).map (encoding 4)) =
      .ok ['8', '2', '2', '4', '3', '1'] := by decide +kernel

/-- V-N2: `RESET; TICK; IDLE 3; TICK` encodes to `8 1 0 0 0 1`. -/
theorem test_assemble_idle :
    parseLine ['I', 'D', 'L', 'E', ' ', '3'] = .ok (some (.idle 3)) ∧
    encoding 4 [.command .reset, .command .tick, .idle 3, .command .tick] = ['8', '1', '0', '0', '0', '1'] := by
  decide +kernel

theorem test_assembler_refuses :
    parseLine ['T', 'I', 'C', 'K', ' ', '2'] = .error (.wrongOperands ['T', 'I', 'C', 'K']) ∧
    parseLine ['J', 'M', 'P'] = .error (.unknownWord ['J', 'M', 'P']) ∧
    parseLine ['I', 'D', 'L', 'E', ' ', 'x'] = .error (.notANumber ['X']) := by decide +kernel

/-! Witnesses: for every statement with hypotheses, a concrete state and operands that meet all of them together. -/

/-- The state after V-R1. -/
def afterVR1 : State := idleState 4 ⟨0xD002#16, 0, false, [0, 2, 4, 8]⟩

/-- The same registers at the last slot of the window (V-T4). -/
def atWindowEnd : State := idleState 4 ⟨0xD002#16, 15, false, [0, 2, 4, 8]⟩

/-- An `IDLE` state with a zero generator (V-T8): representable, though no run from RESET reaches it. -/
def zeroGenerator : State := idleState 2 ⟨0x0000#16, 7, false, [7]⟩

/-- The block stuck or in progress with coil A asserted (V-R8). -/
def midPulse : State :=
  { cfg := cfgOf 4 0x0001#16, ctl := .busy, out := { coilA := true, coilB := false, history := [] }, inputs := [] }

def withInputs (s : State) (ws : List StepInput) : State := { s with inputs := ws }

theorem afterVR1_legal : Legal afterVR1.cfg := by show Legal (cfgOf 4 0x0001#16); decide

theorem good_registers_witness : Regs.Good (cfgOf 4 0x0001#16) ⟨0xD002#16, 0, false, [0, 2, 4, 8]⟩ :=
  { seq_wf := by decide, seq_full := by decide, lfsr_ne := by decide, cnt_lt := by decide }

theorem afterVR1_inv (ws : List StepInput) : (withInputs afterVR1 ws).Inv :=
  { legal := by show Legal (cfgOf 4 0x0001#16); decide
    regs := fun r h => by
      have h' : Control.idle ⟨0xD002#16, 0, false, [0, 2, 4, 8]⟩ = .idle r := h
      cases h'; exact good_registers_witness
    released := fun _ => ⟨rfl, rfl⟩
    exclusive := by show ¬(false = true ∧ false = true); decide }

theorem witness_legal_length : (4 ∈ legalLengths ∧ counterWidth 4 ≤ 15) ∧ 1 ∈ legalLengths ∧ 16384 ∈ legalLengths := by
  decide

theorem witness_nonzero_words : (0x0001#16 : Word) ≠ 0#16 ∧ (0xFFFF#16 : Word) ≠ 0#16 := by decide

/-- StepCommand…, BuildCommand…, Nops…, PulseCommand…: legal, idle, released, with the inputs the clauses ask for. -/
theorem witness_idle_command :
    Legal (withInputs afterVR1 (List.replicate 3 0b0000#4 ++ [0b0001#4])).cfg ∧
    (withInputs afterVR1 (List.replicate 3 0b0000#4 ++ [0b0001#4])).ctl = .idle ⟨0xD002#16, 0, false, [0, 2, 4, 8]⟩ ∧
    afterVR1.out.Released :=
  ⟨by show Legal (cfgOf 4 0x0001#16); decide, rfl, rfl, rfl⟩

theorem witness_step_inputs :
    (withInputs afterVR1 (List.replicate 65535 0b0010#4 ++ [])).inputs = List.replicate 65535 0b0010#4 ++ [] := rfl

/-- BuildIsUncapped…, CompletedBuild…: a build that completes, from an idle state. -/
theorem witness_completed_build :
    4 ∈ legalLengths ∧ build afterVR1.cfg.n 0xD002#16 = some ⟨[0, 1, 4, 8], 0x20B4#16, 10⟩ := by decide +kernel

/-- Two idle states that agree on `N` and `LFSR` and differ in the rest, whose BUILDs complete. -/
theorem witness_two_builds :
    (∃ t q, exec .build afterVR1 = .next t ∧ t.ctl = .idle q) ∧
    atWindowEnd.cfg.n = afterVR1.cfg.n ∧ atWindowEnd.ctl = .idle ⟨0xD002#16, 15, false, [0, 2, 4, 8]⟩ :=
  ⟨⟨_, _, (Laws.exec_build_idle (r := ⟨0xD002#16, 0, false, [0, 2, 4, 8]⟩) afterVR1_legal rfl).trans
    (Laws.runBuild_some witness_completed_build.2), rfl⟩, rfl, rfl⟩

/-- TickLooksUp…, clause 1 (a set slot, not the window's last) and the boundary slots of clauses 2 and 3. -/
theorem witness_tick_clauses :
    (Memory.bit [0, 2, 4, 8] 0 = true ∧ 0 + 1 < 4 * afterVR1.cfg.n) ∧
    (Memory.bit [0, 2, 4, 8] 14 = false ∧ 14 + 1 < 4 * afterVR1.cfg.n) ∧
    (Memory.bit [0, 2, 4, 8] 15 = false ∧ 15 + 1 = 4 * atWindowEnd.cfg.n ∧ (0xD002#16 : Word) ≠ 0#16) ∧
    (Memory.bit [7] 7 = true ∧ 7 + 1 = 4 * zeroGenerator.cfg.n ∧ 2 ≤ zeroGenerator.cfg.n) := by decide

/-- V-B15 at a window end: with `N = 1` a zero generator is no divergence. -/
def zeroGeneratorN1 : State := idleState 1 ⟨0x0000#16, 3, false, [3]⟩

/-- TickLooksUp…, clause 2 with `LFSR = 0` and `N = 1` at the window's last slot, and what the TICK answers (R56, R59). -/
theorem witness_zero_generator_N1 :
    (Legal zeroGeneratorN1.cfg ∧ zeroGeneratorN1.out.Released ∧ Memory.bit [3] 3 = true ∧
      3 + 1 = 4 * zeroGeneratorN1.cfg.n ∧ zeroGeneratorN1.cfg.n = 1) ∧
    shown (exec .tick zeroGeneratorN1) = some (.idle ⟨0x0000#16, 0, true, [0]⟩, [.A], false, false) :=
  ⟨⟨by show Legal (cfgOf 1 0x0001#16); decide, ⟨rfl, rfl⟩, by decide, by decide, rfl⟩, by decide +kernel⟩

theorem witness_zero_generator :
    Legal zeroGenerator.cfg ∧ zeroGenerator.ctl = .idle ⟨0x0000#16, 7, false, [7]⟩ ∧ 2 ≤ zeroGenerator.cfg.n ∧
    zeroGenerator.out.Released :=
  ⟨by show Legal (cfgOf 2 0x0001#16); decide, rfl, by decide, rfl, rfl⟩

/-- WindowEndTickFromZero…: both values of the tested slot, at the window's last slot of `N = 2`. -/
theorem witness_zero_window_end :
    (Memory.bit [7] 7 = true ∧ Memory.bit [0, 4] 7 = false) ∧ 7 + 1 = 4 * zeroGenerator.cfg.n ∧
    2 ≤ zeroGenerator.cfg.n := by decide

/-- ObservationPort…Ranked and Uninit…: a state for each ground of refusal, and a byte inside and outside `[0, NB)`. -/
theorem witness_port_refusals :
    ¬Legal (State.powerUp (cfgOf 3 0x0001#16)).cfg ∧
    (Legal (State.powerUp (cfgOf 4 0x0001#16)).cfg ∧ (State.powerUp (cfgOf 4 0x0001#16)).phase = .uninit) ∧
    (Legal midPulse.cfg ∧ midPulse.phase = .busy) ∧ 1 < numBytes midPulse.cfg.n ∧ ¬2 < numBytes midPulse.cfg.n :=
  ⟨by show ¬Legal (cfgOf 3 0x0001#16); decide, ⟨afterVR1_legal, rfl⟩, ⟨afterVR1_legal, rfl⟩, by decide, by decide⟩

/-- Programs…: a line without a comment sign, and a word with `IN[3] = 1`. -/
theorem witness_comment : ';' ∉ ['T', 'I', 'C', 'K', ' '] ∧ (0b1111#4).getLsbD 3 = true := by decide

/-- Each…, last clause, and Reserved…: RESET in `UNINIT` and in `BUSY`, and an idle block. -/
theorem witness_not_refused :
    (Instr.reset.wellFormed = true ∧ (State.powerUp (cfgOf 4 0x0001#16)).phase ≠ .idle ∧ midPulse.phase ≠ .idle) ∧
    Legal afterVR1.cfg ∧ afterVR1.phase = .idle :=
  ⟨by decide, afterVR1_legal, rfl⟩

/-- WindowOf4NTicks…: a good state at `CNT = 0` with 3 TICKs (clause 1) and with 16 TICKs and a NOP (clause 2). -/
theorem witness_window :
    (withInputs afterVR1 ([1#4, 0#4, 1#4, 1#4] ++ [])).Inv ∧
    ([1#4, 0#4, 1#4, 1#4] : List StepInput).count 0b0001#4 < 4 * afterVR1.cfg.n ∧
    (withInputs afterVR1 ((0#4 :: List.replicate 16 1#4) ++ [])).Inv ∧
    ((0#4 :: List.replicate 16 1#4) : List StepInput).count 0b0001#4 = 4 * afterVR1.cfg.n ∧
    (∀ w ∈ ((0#4 :: List.replicate 16 1#4) : List StepInput), w = 0b0000#4 ∨ w = 0b0001#4) :=
  ⟨afterVR1_inv _, by decide, afterVR1_inv _, by decide, by decide⟩

/-- PulseDrives…: outputs with both signals 0, and the terminal of either polarity. -/
theorem witness_released_outputs :
    Outputs.quiet.Released ∧ Terminal.B = (if true then Terminal.B else Terminal.A) ∧
    Terminal.A = (if false then Terminal.B else Terminal.A) := ⟨⟨rfl, rfl⟩, rfl, rfl⟩

/-- A step that answers a next state from a good idle state (Coil…, EveryStepKeeps…, ZeroIs…, Zero…Diverges, History). -/
theorem witness_good_step :
    (withInputs afterVR1 [1#4]).Inv ∧ (∃ t, step (withInputs afterVR1 [1#4]) = .next t ∧ ∃ q, t.ctl = .idle q) ∧
    (withInputs afterVR1 [1#4]).phase ≠ .busy :=
  ⟨afterVR1_inv _, ⟨_, rfl, _, rfl⟩, by decide⟩

/-- PulsePolarity…: inputs without RESET and a run of two steps over them that completes, from a restart state. -/
theorem witness_alternation :
    (∀ w ∈ ([1#4, 4#4] : List StepInput), w.getLsbD 3 = false) ∧
    (∃ t, run 2 (withInputs afterVR1 [1#4, 4#4]) = .next t) ∧ (cfgOf 4 0x0001#16).pol0 = false :=
  ⟨by decide, ⟨_, rfl⟩, rfl⟩

theorem reset_from_power_up (ws : List StepInput) :
    exec .reset (withInputs (State.powerUp (cfgOf 4 0x0001#16)) ws) = .next (withInputs afterVR1 ws) := by
  have hb : build (withInputs (State.powerUp (cfgOf 4 0x0001#16)) ws).cfg.n
      (restartRegs (withInputs (State.powerUp (cfgOf 4 0x0001#16)) ws).cfg).lfsr =
      some ⟨[0, 2, 4, 8], 0xD002#16, 15⟩ := test_build_small.2.1
  exact (Laws.exec_reset_legal (s := withInputs (State.powerUp (cfgOf 4 0x0001#16)) ws) afterVR1_legal).trans
    (Laws.runBuild_some hb)

/-- RESET completes from power-up with inputs waiting (PulsePolarity…, EveryIdleState…, RunsAfterRestart…, History). -/
theorem witness_restart :
    ∃ t, exec .reset (withInputs (State.powerUp (cfgOf 4 0x0001#16)) [1#4, 4#4]) = .next t ∧
      t.inputs = [1#4, 4#4] ∧ (∃ u, run 2 t = .next u ∧ ∃ q, u.ctl = .idle q) ∧
      (cfgOf 4 0x0001#16).seed0 ≠ 0#16 :=
  ⟨_, reset_from_power_up _, rfl, ⟨_, rfl, _, rfl⟩, by decide⟩

/-- ResetReseeds…, ResetDuring…, Uninit…, Busy…, Each…: a legal state in each phase, and the worked example's values. -/
theorem witness_phases :
    (Legal (State.powerUp (cfgOf 4 0x0001#16)).cfg ∧ (State.powerUp (cfgOf 4 0x0001#16)).phase = .uninit) ∧
    (Legal midPulse.cfg ∧ midPulse.ctl = .busy ∧ midPulse.phase = .busy ∧ midPulse.inputs = []) ∧
    midPulse.cfg.n = 4 ∧ midPulse.cfg.seed0 = 0x0001#16 ∧ midPulse.cfg.pol0 = false := by
  refine ⟨⟨?_, rfl⟩, ⟨?_, rfl, rfl, rfl⟩, rfl, rfl, rfl⟩ <;> (show Legal (cfgOf 4 0x0001#16); decide)

theorem witness_illegal : ¬Legal (State.powerUp (cfgOf 3 0x0001#16)).cfg := by
  show ¬Legal (cfgOf 3 0x0001#16); decide

theorem witness_instr_sides :
    (Instr.tick.wellFormed = true ∧ Instr.tick ≠ .reset) ∧ Instr.reserved0111.wellFormed = false := by decide

theorem witness_step_input :
    (withInputs afterVR1 [1#4]).inputs = 1#4 :: [] ∧ afterVR1.inputs = [] ∧ Legal afterVR1.cfg :=
  ⟨rfl, rfl, by show Legal (cfgOf 4 0x0001#16); decide⟩

/-- ByteView…, ObservationPort…: a slot and a byte inside the store, and the first byte outside. -/
theorem witness_byte_indices : (8 : Nat) < 16 ∧ (1 : Nat) < numBytes afterVR1.cfg.n ∧ numBytes afterVR1.cfg.n ≤ 2 := by
  decide

/-- CounterIs…, PolarityFlips…, EachElement…: TICK in a good idle state answers an idle state. -/
theorem witness_tick_next :
    (withInputs afterVR1 []).Inv ∧ ∃ t q, exec .tick (withInputs afterVR1 []) = .next t ∧ t.ctl = .idle q :=
  ⟨afterVR1_inv _, _, _, rfl, rfl⟩

/-- IdleBlockRunsOn…: a good idle state with inputs none of which is reserved. -/
theorem witness_idle_block :
    (withInputs afterVR1 [8#4, 1#4, 2#4, 3#4, 4#4, 0#4]).Inv ∧
    (withInputs afterVR1 [8#4, 1#4, 2#4, 3#4, 4#4, 0#4]).phase = .idle ∧
    ∀ w ∈ ([8#4, 1#4, 2#4, 3#4, 4#4, 0#4] : List StepInput), (decode w).wellFormed = true :=
  ⟨afterVR1_inv _, rfl, by decide⟩

/-- NoStepFaults…: the boundary of the counter's range on both sides. -/
theorem witness_counter_boundary :
    4 * (idleState 4 ⟨0xD002#16, 16, true, [0]⟩).cfg.n ≤ 16 ∧ ¬4 * (idleState 4 ⟨0xD002#16, 15, true, [0]⟩).cfg.n ≤ 15 ∧
    Legal (idleState 4 ⟨0xD002#16, 16, true, [0]⟩).cfg :=
  ⟨by decide, by decide, by show Legal (cfgOf 4 0x0001#16); decide⟩

/-- The boundary values of the ranges in ConsecutiveDraws…, ByteView…, Observation… and Configuration…. -/
theorem witness_range_ends :
    (8192 ∈ legalLengths ∧ counterWidth 8192 = 15) ∧ counterWidth 16384 = 16 ∧
    (2 ∈ legalLengths ∧ numBytes 2 = 1) ∧ byteIndex 255 = 31 ∧ bitIndex 255 = 7 ∧ (16384 : Nat) = 2 ^ 14 := by decide

/-- RunsAfterRestart…: two states with the same configuration and inputs and different pasts, both of which RESET accepts. -/
theorem witness_two_pasts :
    (withInputs midPulse [1#4]).cfg = (withInputs (State.powerUp (cfgOf 4 0x0001#16)) [1#4]).cfg ∧
    exec .reset (withInputs (State.powerUp (cfgOf 4 0x0001#16)) [1#4]) = .next (withInputs afterVR1 [1#4]) ∧
    (∃ t, exec .reset (withInputs midPulse [1#4]) = .next t) ∧ ∃ u, run 1 (withInputs afterVR1 [1#4]) = .next u :=
  ⟨rfl, reset_from_power_up _,
    ⟨_, (Laws.exec_reset_legal (s := withInputs midPulse [1#4]) afterVR1_legal).trans
      (Laws.runBuild_some test_build_small.2.1)⟩, ⟨_, rfl⟩⟩

end Sys2Proof.Tests
end

section
/-! PROOFS. What a completed build and a restart leave, for every legal configuration, and the reset state as the restart
of the default configuration. -/

namespace Sys2Proof.Proofs

open Sys2Proof.Machine Sys2Proof.Laws

/-! The generator: the bits of `next`, and that it keeps a word nonzero. -/

/-- R43 for every bit position: a shift right by one with the feedback bit on top. -/
theorem getLsbD_next (s : Word) (j : Nat) :
    (Lfsr.next s).getLsbD j = if j = 15 then Lfsr.feedback s else s.getLsbD (j + 1) := by
  unfold Lfsr.next
  rw [BitVec.getLsbD_or, BitVec.getLsbD_ushiftRight, BitVec.getLsbD_shiftLeft, BitVec.getLsbD_setWidth,
    BitVec.getLsbD_ofBool, Nat.add_comm 1 j]
  rcases Nat.lt_trichotomy j 15 with h | rfl | h
  · simp [h, h.ne]
  · simp
  · have hj : ¬j < 16 := by omega
    simp [hj, h.ne']

/-- `next` keeps a word nonzero (R47): were `next s` zero, the bits of `s` above bit 0 would be 0, and then the feedback bit
would be bit 0. -/
theorem next_ne_zero {s : Word} (hs : s ≠ 0#16) : Lfsr.next s ≠ 0#16 := by
  intro h
  have hbits (j : Nat) : (Lfsr.next s).getLsbD j = false := by simp [h]
  have hhigh (j : Nat) (hj : j ≠ 15) : s.getLsbD (j + 1) = false := by
    have := hbits j
    rwa [getLsbD_next, if_neg hj] at this
  have hlow : s.getLsbD 0 = false := by
    have := hbits 15
    rw [getLsbD_next, if_pos rfl, Lfsr.feedback, hhigh 1 (by decide), hhigh 2 (by decide), hhigh 4 (by decide)] at this
    simpa using this
  refine hs (BitVec.eq_of_getLsbD_eq fun j hj => ?_)
  cases j with
  | zero => rw [hlow, BitVec.getLsbD_zero]
  | succ j => rw [hhigh j (by omega), BitVec.getLsbD_zero]

/-! The build: what it leaves when it completes. -/

/-- What holds at the entry of the build loop and is kept by every draw, colliding or setting a slot, holds of the result
when the loop completes, with a count that has reached `n`. -/
theorem buildLoop_invariant {n : Nat} {P : (count draws : Nat) → Memory → Word → Prop}
    (hcollide : ∀ count draws seq l, count < n → Memory.bit seq (candidate n (Lfsr.next l)) = true →
      P count draws seq l → P count (draws + 1) seq (Lfsr.next l))
    (hset : ∀ count draws seq l, count < n → Memory.bit seq (candidate n (Lfsr.next l)) = false →
      P count draws seq l → P (count + 1) (draws + 1) (Memory.set seq (candidate n (Lfsr.next l))) (Lfsr.next l))
    {fuel count draws : Nat} {seq : Memory} {l : Word} {b : BuildResult}
    (hentry : P count draws seq l) (h : buildLoop n fuel count draws seq l = some b) :
    ∃ final, n ≤ final ∧ P final b.draws b.seq b.lfsr := by
  induction fuel generalizing count draws seq l with
  | zero =>
    by_cases hlt : count < n
    · simp [buildLoop_out_of_fuel hlt] at h
    · rw [buildLoop_done hlt] at h
      cases h
      exact ⟨count, Nat.le_of_not_lt hlt, hentry⟩
  | succ fuel ih =>
    by_cases hlt : count < n
    · cases hbit : Memory.bit seq (candidate n (Lfsr.next l)) with
      | true =>
        rw [buildLoop_collide hlt hbit] at h
        exact ih (hcollide _ _ _ _ hlt hbit hentry) h
      | false =>
        rw [buildLoop_set hlt hbit] at h
        exact ih (hset _ _ _ _ hlt hbit hentry) h
    · rw [buildLoop_done hlt] at h
      cases h
      exact ⟨count, Nat.le_of_not_lt hlt, hentry⟩

/-- The store in the build loop: canonical, with exactly `count` slots set, never more than `n`. -/
def LoopStore (n count : Nat) (seq : Memory) : Prop :=
  Memory.wf (slots n) seq ∧ Memory.popcount seq = count ∧ count ≤ n

/-- A draw that sets a clear slot keeps `LoopStore`, one slot further on. -/
theorem LoopStore.set {n count : Nat} {seq : Memory} {d : Word} (h : LoopStore n count seq) (hlt : count < n)
    (hbit : Memory.bit seq (candidate n d) = false) : LoopStore n (count + 1) (Memory.set seq (candidate n d)) := by
  obtain ⟨hwf, hcount, -⟩ := h
  exact ⟨set_wf hwf (candidate_lt (Nat.zero_lt_of_lt hlt) d), by rw [popcount_set_of_clear hbit, hcount], hlt⟩

/-- R23 (a), (b) after a completed build (R51). -/
theorem build_seq {n : Nat} {l : Word} {b : BuildResult} (h : build n l = some b) :
    Memory.wf (slots n) b.seq ∧ Memory.popcount b.seq = n := by
  obtain ⟨final, hge, hwf, hcount, hle⟩ :=
    buildLoop_invariant (P := fun count _ seq _ => LoopStore n count seq) (fun _ _ _ _ _ _ hs => hs)
      (fun _ _ _ _ hlt hbit hs => hs.set hlt hbit) ⟨cleared_wf _, rfl, Nat.zero_le n⟩ h
  exact ⟨hwf, hcount.trans (hle.antisymm hge)⟩

/-- R23 (c), its generator half, after a completed build. -/
theorem build_lfsr_ne_zero {n : Nat} {l : Word} {b : BuildResult} (hl : l ≠ 0#16) (h : build n l = some b) :
    b.lfsr ≠ 0#16 := by
  obtain ⟨-, -, hb⟩ :=
    buildLoop_invariant (P := fun _ _ _ l => l ≠ 0#16) (fun _ _ _ _ _ _ hl => next_ne_zero hl)
      (fun _ _ _ _ _ _ hl => next_ne_zero hl) hl h
  exact hb

/-! The restart: its registers and the state RESET answers. -/

/-- A legal `N` is a power of two, so it is positive (R5). -/
theorem legal_pos {cfg : Config} (h : Legal cfg) : 0 < cfg.n := by
  obtain ⟨k, -, hk⟩ := List.mem_map.1 h.1
  exact hk ▸ Nat.two_pow_pos k

/-- A state that went back to `IDLE` with good registers and released coils has the invariant. -/
theorem toIdle_inv {s : State} {r : Regs} {o : Outputs} (hl : Legal s.cfg) (hr : Regs.Good s.cfg r) (ho : o.Released) :
    (s.toIdle r o).Inv where
  legal := hl
  regs := by rintro _ ⟨⟩; exact hr
  released := fun _ => ho
  exclusive := by simp [ho.1]

/-- The registers a restart ends with are good (R23 table, R85). -/
theorem afterRestart_good {cfg : Config} (hl : Legal cfg) {b : BuildResult} (hb : build cfg.n cfg.seed0 = some b) :
    Regs.Good cfg (Regs.afterRestart cfg b) where
  seq_wf := (build_seq hb).1
  seq_full := (build_seq hb).2
  lfsr_ne := build_lfsr_ne_zero hl.2 hb
  cnt_lt := Nat.mul_pos (by decide) (legal_pos hl)

/-- RESET whose build completes ends in `IDLE` with the restart's registers and both coils released (R85). -/
theorem exec_reset_build {s : State} (hl : Legal s.cfg) {b : BuildResult} (hb : build s.cfg.n s.cfg.seed0 = some b) :
    exec .reset s = .next (s.toIdle (Regs.afterRestart s.cfg b) s.out.release) :=
  (exec_reset_legal hl).trans (runBuild_some hb)

/-- The reset state is the power-up state gone to `IDLE` with the default restart's registers. -/
theorem state_reset_eq {b : BuildResult} (hb : build Config.default.n Config.default.seed0 = some b) :
    State.reset =
      (State.powerUp Config.default).toIdle (Regs.afterRestart Config.default b) Outputs.quiet := by
  simp [State.reset, Control.afterRestart, hb, State.powerUp, State.toIdle]

/-- The default configuration is a block this spec describes (R5, R7). -/
theorem default_legal : Legal Config.default := by decide

/-- V-B12: the build from the default seed takes 81 draws and leaves `0xEE1D`. -/
theorem default_build : ∃ b, build 64 0x0001#16 = some b ∧ b.draws = 81 ∧ b.lfsr = 0xEE1D#16 := by
  have hrun : (build 64 0x0001#16).map (fun b => (b.draws, b.lfsr)) = some (81, 0xEE1D#16) := by decide +kernel
  obtain ⟨b, hb, hvalues⟩ := Option.map_eq_some_iff.1 hrun
  obtain ⟨hdraws, hlfsr⟩ := Prod.mk.inj hvalues
  exact ⟨b, hb, hdraws, hlfsr⟩

/-- Settles O36: the reset state is the restart of the default configuration, whose build V-B12 gives (V-R3), and every
legal restart leaves good registers. -/
theorem resetStateIsGoodAndIsWhatResetLeaves : Obligations.ResetStateIsGoodAndIsWhatResetLeaves := by
  obtain ⟨b, hb, hdraws, hlfsr⟩ := default_build
  have hreset := state_reset_eq hb
  refine ⟨?_, ?_, b, hb, hdraws, hlfsr, ?_⟩
  · rw [hreset]
    exact toIdle_inv default_legal (afterRestart_good default_legal hb) ⟨rfl, rfl⟩
  · rw [hreset]
    exact exec_reset_build default_legal hb
  · rw [hreset, toIdle_ctl, ← hlfsr]
    rfl

end Sys2Proof.Proofs
end

section
/-! PROOFS. What a command that answers a next state can have done, said once; and the invariant it keeps, so that every
state reached from a restart has it (R23). -/

namespace Sys2Proof.Proofs

open Sys2Proof.Machine Sys2Proof.Laws

/-! What a command can do: the inversion of `exec`. -/

/-- The ways a command takes `s` to a next state, one per command that has a meaning. -/
inductive Ran (s : State) : Instr → State → Prop
  | reset {t : State} (h : runBuild s (restartRegs s.cfg) s.out.release = .next t) : Ran s .reset t
  | nop {r : Regs} (hc : s.ctl = .idle r) : Ran s .nop (s.toIdle r s.out)
  | tick {r : Regs} {after : Regs × Outputs} {t : State} (hc : s.ctl = .idle r)
      (hlookup : tickLookup s r = some after) (hadvance : tickAdvance s after.1 after.2 = .next t) : Ran s .tick t
  | step {r : Regs} (hc : s.ctl = .idle r) : Ran s .step (s.toIdle { r with lfsr := Lfsr.next r.lfsr } s.out)
  | build {r : Regs} {t : State} (hc : s.ctl = .idle r) (h : runBuild s r s.out = .next t) : Ran s .build t
  | pulse {r : Regs} (hc : s.ctl = .idle r) : Ran s .pulse (s.toIdle (pulse r s.out).1 (pulse r s.out).2)

/-- A command that answers a next state ran on a legal block, in one of the ways of `Ran`. -/
theorem exec_next {i : Instr} {s t : State} (h : exec i s = .next t) : Legal s.cfg ∧ Ran s i t := by
  obtain ⟨hl, -⟩ := exec_next_idle h
  refine ⟨hl, ?_⟩
  cases i with
  | reset => exact .reset ((exec_reset_legal hl).symm.trans h)
  | nop => obtain ⟨-, r, hc, hk⟩ := whenIdle_next (s := s) h; cases hk; exact .nop hc
  | tick =>
    obtain ⟨-, r, hc, hk⟩ := whenIdle_next (s := s) h
    cases hlookup : tickLookup s r with
    | none => simp [hlookup] at hk
    | some after => exact .tick hc hlookup (by simpa [hlookup] using hk)
  | step => obtain ⟨-, r, hc, hk⟩ := whenIdle_next (s := s) h; cases hk; exact .step hc
  | build => obtain ⟨-, r, hc, hk⟩ := whenIdle_next (s := s) h; exact .build hc hk
  | pulse => obtain ⟨-, r, hc, hk⟩ := whenIdle_next (s := s) h; cases hk; exact .pulse hc
  | reserved0101 => cases h
  | reserved0110 => cases h
  | reserved0111 => cases h

/-- What a TICK's lookup that finds a slot answers: the pulse, or the registers and outputs as they were. -/
theorem tickLookup_some {s : State} {r : Regs} {after : Regs × Outputs} (h : tickLookup s r = some after) :
    after = pulse r s.out ∨ after = (r, s.out) := by
  obtain ⟨-, hnone⟩ | ⟨-, -, hhit⟩ | ⟨-, -, hmiss⟩ := tickLookup_cases s r
  · rw [hnone] at h; cases h
  · exact .inl (Option.some.inj (h.symm.trans hhit))
  · exact .inr (Option.some.inj (h.symm.trans hmiss))

/-! The configuration: no step changes it (R19). -/

theorem runBuild_cfg {s t : State} {r : Regs} {o : Outputs} (h : runBuild s r o = .next t) : t.cfg = s.cfg := by
  obtain ⟨b, -, hb⟩ | ⟨-, hb⟩ := runBuild_cases s r o <;> · rw [hb] at h; cases h; rfl

theorem tickAdvance_cfg {s t : State} {r : Regs} {o : Outputs} (h : tickAdvance s r o = .next t) : t.cfg = s.cfg := by
  obtain ⟨-, ha⟩ | ⟨-, ha⟩ := tickAdvance_cases s r o <;> rw [ha] at h
  · exact runBuild_cfg h
  · cases h; rfl

theorem exec_cfg {i : Instr} {s t : State} (h : exec i s = .next t) : t.cfg = s.cfg := by
  obtain ⟨-, hran⟩ := exec_next h
  cases hran with
  | reset h => exact runBuild_cfg h
  | nop => rfl
  | tick _ _ h => exact tickAdvance_cfg h
  | step => rfl
  | build _ h => exact runBuild_cfg h
  | pulse => rfl

/-! The invariant. -/

/-- The invariant does not speak of the inputs to come. -/
theorem inv_withInputs {s : State} (h : s.Inv) (ws : List StepInput) : State.Inv { s with inputs := ws } :=
  ⟨h.legal, h.regs, h.released, h.exclusive⟩

/-- A state left `BUSY` with released coils has the invariant. -/
theorem toBusy_inv {s : State} {o : Outputs} (hl : Legal s.cfg) (ho : o.Released) : (s.toBusy o).Inv where
  legal := hl
  regs := by rintro _ ⟨⟩
  released := fun _ => ho
  exclusive := by simp [ho.1]

/-- A build inside an operation makes the registers good, whatever `SEQ` was. -/
theorem runBuild_inv {s t : State} {r : Regs} {o : Outputs} (hl : Legal s.cfg) (hlfsr : r.lfsr ≠ 0#16)
    (hcnt : r.cnt < slots s.cfg.n) (ho : o.Released) (h : runBuild s r o = .next t) : t.Inv := by
  obtain ⟨b, hb, hnext⟩ | ⟨-, hnext⟩ := runBuild_cases s r o <;> rw [hnext] at h <;> cases h
  · obtain ⟨hwf, hfull⟩ := build_seq hb
    exact toIdle_inv hl ⟨hwf, hfull, build_lfsr_ne_zero hlfsr hb, hcnt⟩ ho
  · exact toBusy_inv hl ho

theorem slots_pos {cfg : Config} (hl : Legal cfg) : 0 < slots cfg.n := Nat.mul_pos (by decide) (legal_pos hl)

/-- RESET needs no invariant: it makes the state good, whatever it was (R85, R86). -/
theorem exec_reset_inv {s t : State} (h : exec .reset s = .next t) : t.Inv := by
  obtain ⟨hl, ⟨h⟩⟩ := exec_next h
  exact runBuild_inv hl hl.2 (slots_pos hl) ⟨rfl, rfl⟩ h

theorem outputs_pulse_released {o : Outputs} (h : o.Released) (t : Terminal) : (o.pulse t).Released := by
  obtain ⟨ha, hb⟩ := h
  cases t <;> simp [Outputs.pulse, Outputs.energized, Outputs.Released, ha, hb]

theorem tickLookup_good {s : State} {r : Regs} {after : Regs × Outputs} (hr : r.Good s.cfg) (ho : s.out.Released)
    (h : tickLookup s r = some after) : after.1.Good s.cfg ∧ after.2.Released := by
  obtain rfl | rfl := tickLookup_some h
  · exact ⟨{ hr with }, outputs_pulse_released ho _⟩
  · exact ⟨hr, ho⟩

theorem tickAdvance_inv {s t : State} {r : Regs} {o : Outputs} (hl : Legal s.cfg) (hr : r.Good s.cfg) (ho : o.Released)
    (h : tickAdvance s r o = .next t) : t.Inv := by
  obtain ⟨-, ha⟩ | ⟨hne, ha⟩ := tickAdvance_cases s r o <;> rw [ha] at h
  · exact runBuild_inv (r := { r with cnt := 0 }) hl hr.lfsr_ne (slots_pos hl) ho h
  · cases h
    exact toIdle_inv hl { hr with cnt_lt := Nat.lt_of_le_of_ne hr.cnt_lt hne } ho

theorem inv_idle {s : State} {r : Regs} (hs : s.Inv) (hc : s.ctl = .idle r) : r.Good s.cfg ∧ s.out.Released :=
  ⟨hs.regs r hc, hs.released (by simp [(phase_eq_idle_iff s).2 ⟨r, hc⟩])⟩

/-- Every command keeps the invariant. -/
theorem exec_inv {i : Instr} {s t : State} (hs : s.Inv) (h : exec i s = .next t) : t.Inv := by
  obtain ⟨hl, hran⟩ := exec_next h
  cases hran with
  | reset => exact exec_reset_inv h
  | nop hc => exact toIdle_inv hl (inv_idle hs hc).1 (inv_idle hs hc).2
  | tick hc hlookup hadvance =>
    obtain ⟨hr, ho⟩ := tickLookup_good (inv_idle hs hc).1 (inv_idle hs hc).2 hlookup
    exact tickAdvance_inv hl hr ho hadvance
  | step hc =>
    obtain ⟨hr, ho⟩ := inv_idle hs hc
    exact toIdle_inv hl { hr with lfsr_ne := next_ne_zero hr.lfsr_ne } ho
  | build hc hbuild =>
    obtain ⟨hr, ho⟩ := inv_idle hs hc
    exact runBuild_inv hl hr.lfsr_ne hr.cnt_lt ho hbuild
  | pulse hc =>
    obtain ⟨hr, ho⟩ := inv_idle hs hc
    exact toIdle_inv hl { hr with } (outputs_pulse_released ho _)

/-- One step keeps the invariant and the configuration. -/
theorem step_inv {s t : State} (hs : s.Inv) (h : Machine.step s = .next t) : t.Inv ∧ t.cfg = s.cfg := by
  obtain ⟨-, -, rfl⟩ | ⟨w, rest, -, hexec⟩ := step_next_cases h
  · exact ⟨hs, rfl⟩
  · have hcfg := exec_cfg hexec
    exact ⟨exec_inv (inv_withInputs hs rest) hexec, hcfg⟩

/-- So does a run. -/
theorem run_inv {k : Nat} {s t : State} (hs : s.Inv) (h : run k s = .next t) : t.Inv ∧ t.cfg = s.cfg := by
  induction k generalizing s with
  | zero => cases h; exact ⟨hs, rfl⟩
  | succ k ih =>
    obtain ⟨u, hstep, hrun⟩ := run_succ_inv h
    obtain ⟨hu, hcfg⟩ := step_inv hs hstep
    obtain ⟨ht, hcfg'⟩ := ih hu hrun
    exact ⟨ht, hcfg'.trans hcfg⟩

/-- Settles O38: the state RESET answers has the invariant, whatever it was before, and every step keeps it. -/
theorem everyIdleStateAfterRestartIsGood : Obligations.EveryIdleStateAfterRestartIsGood := by
  intro s s₀ _ hreset ws k t q hrun hq
  obtain ⟨hinv, hcfg⟩ := run_inv (inv_withInputs (exec_reset_inv hreset) ws) hrun
  obtain ⟨⟨⟨hsorted, hlt⟩, hfull, hlfsr, hcnt⟩, ha, hb⟩ := inv_idle hinv hq
  have hcfg₀ := exec_cfg hreset
  exact ⟨hfull, hsorted.imp Nat.ne_of_lt, hlt, hlfsr, hcnt, ha, hb, hcfg.trans hcfg₀⟩

end Sys2Proof.Proofs
end

section
/-! PROOFS. The generator's cycle: `next` is linear, so an iterate is evaluated by repeated squaring; the period of
`0x0001` is 65535, so its orbit is every nonzero word (R46).  Hence a build from a nonzero word completes (R55). -/

namespace Sys2Proof.Proofs

open Sys2Proof.Machine Sys2Proof.Laws

/-! Iterates of a linear map, by repeated squaring of its table of values. -/

/-- A map on words that commutes with the exclusive OR. -/
def Linear (f : Word → Word) : Prop := ∀ a b, f (a ^^^ b) = f a ^^^ f b

theorem Linear.map_zero {f : Word → Word} (hf : Linear f) : f 0#16 = 0#16 := by
  simpa using hf 0#16 0#16

theorem Linear.comp_self {f : Word → Word} (hf : Linear f) : Linear (f ∘ f) := fun a b => by
  simp only [Function.comp_apply, hf _ _]

/-- `next` is linear, for each of its bits is an exclusive OR of bits (R43). -/
theorem next_linear : Linear Lfsr.next := by
  refine fun a b => BitVec.eq_of_getLsbD_eq fun j _ => ?_
  rw [BitVec.getLsbD_xor, getLsbD_next, getLsbD_next, getLsbD_next]
  split
  · simp only [Lfsr.feedback, BitVec.getLsbD_xor, Bool.xor_assoc, Bool.xor_left_comm]
  · rw [BitVec.getLsbD_xor]

/-- The exclusive OR of the table entries whose bit is set in `s`, the first entry standing at bit `j`. -/
def combine : (table : List Word) → (j : Nat) → (s : Word) → Word
  | [], _, _ => 0#16
  | c :: cs, j, s => (if s.getLsbD j then c else 0#16) ^^^ combine cs (j + 1) s

/-- The words with exactly one bit set, bit 0 first. -/
def unitWords : List Word := (List.range' 0 16).map (BitVec.twoPow 16)

theorem combine_map {f : Word → Word} (hf : Linear f) (cs : List Word) (j : Nat) (s : Word) :
    combine (cs.map f) j s = f (combine cs j s) := by
  induction cs generalizing j with
  | nil => exact hf.map_zero.symm
  | cons c cs ih => simp only [List.map_cons, combine, ih, hf _ _, apply_ite f, hf.map_zero]

/-- Bit `j` of a word on its own. -/
theorem getLsbD_single_bit (s : Word) (j i : Nat) :
    (if s.getLsbD j then BitVec.twoPow 16 j else 0#16).getLsbD i = (decide (i = j) && s.getLsbD i) := by
  by_cases hij : i = j
  · subst hij
    cases hs : s.getLsbD i with
    | false => simp
    | true => simp [BitVec.lt_of_getLsbD hs]
  · cases s.getLsbD j <;> simp [BitVec.getLsbD_twoPow, hij, Ne.symm hij]

theorem getLsbD_combine_range (k j i : Nat) (s : Word) :
    (combine ((List.range' j k).map (BitVec.twoPow 16)) j s).getLsbD i =
      (decide (j ≤ i ∧ i < j + k) && s.getLsbD i) := by
  induction k generalizing j with
  | zero => simp [combine]
  | succ k ih =>
    rw [List.range'_succ, List.map_cons, combine, BitVec.getLsbD_xor, ih, getLsbD_single_bit,
      ← Bool.and_xor_distrib_right]
    congr 1
    grind

/-- A word is the exclusive OR of its bits. -/
theorem combine_unitWords (s : Word) : combine unitWords 0 s = s := by
  refine BitVec.eq_of_getLsbD_eq fun j hj => ?_
  rw [unitWords, getLsbD_combine_range]
  simp [hj]

/-- A linear map is given by its values on the words with one bit set. -/
theorem combine_table {f : Word → Word} (hf : Linear f) : combine (unitWords.map f) 0 = f :=
  funext fun s => by rw [combine_map hf, combine_unitWords]

/-- Iterating by repeated squaring: `digits` are the binary digits of how often, least significant first, and `table` holds
the values of the map on `unitWords`. -/
def jump : (digits : List Nat) → (table : List Word) → (s : Word) → Word
  | [], _, s => s
  | d :: ds, table, s => jump ds (table.map (combine table 0)) ((combine table 0)^[d] s)

theorem jump_table {f : Word → Word} (hf : Linear f) (digits : List Nat) (s : Word) :
    jump digits (unitWords.map f) s = f^[Nat.ofDigits 2 digits] s := by
  induction digits generalizing f s with
  | nil => rfl
  | cons d ds ih =>
    rw [jump, combine_table hf, List.map_map, ih hf.comp_self, Nat.ofDigits_cons, Nat.add_comm d,
      Function.iterate_add_apply, Function.iterate_mul]
    rfl

/-- The `k`-th iterate of `next`, in a form that evaluates in as many squarings as `k` has binary digits. -/
theorem iterate_next_eq_jump (k : Nat) (s : Word) :
    Lfsr.next^[k] s = jump (Nat.digits 2 k) (unitWords.map Lfsr.next) s := by
  rw [jump_table next_linear, Nat.ofDigits_digits]

/-! The cycle of R46. -/

/-- `n` is the minimal period of a point that `n` steps return and that `n / p` steps do not, for each prime `p` of `n`. -/
theorem minimalPeriod_eq_of_prime_quotients {α : Type} {f : α → α} {x : α} {n : Nat} (hx : f^[n] x = x)
    (hprime : ∀ p, p.Prime → p ∣ n → f^[n / p] x ≠ x) : Function.minimalPeriod f x = n := by
  obtain ⟨c, hc⟩ := Function.IsPeriodicPt.minimalPeriod_dvd hx
  by_contra hne
  have hp : c.minFac.Prime := Nat.minFac_prime fun h1 => hne (by rw [hc, h1, Nat.mul_one])
  have hperiod : Function.minimalPeriod f x ∣ n / c.minFac := by
    rw [hc, Nat.mul_div_assoc _ c.minFac_dvd]
    exact Nat.dvd_mul_right _ _
  exact hprime _ hp (hc ▸ c.minFac_dvd.mul_left _) (Function.isPeriodicPt_iff_minimalPeriod_dvd.2 hperiod)

theorem prime_dvd_65535 {p : Nat} (hp : p.Prime) (h : p ∣ 65535) : p = 3 ∨ p = 5 ∨ p = 17 ∨ p = 257 := by
  have hmem : p ∈ Nat.primeFactorsList 65535 := (Nat.mem_primeFactorsList (by decide)).2 ⟨hp, h⟩
  simpa using hmem

/-- R46 for the word `0x0001`. -/
theorem minimalPeriod_next_one : Function.minimalPeriod Lfsr.next 1#16 = 65535 := by
  refine minimalPeriod_eq_of_prime_quotients ?_ fun p hp hdvd => ?_
  · rw [iterate_next_eq_jump]
    decide +kernel
  · rw [iterate_next_eq_jump]
    rcases prime_dvd_65535 hp hdvd with rfl | rfl | rfl | rfl <;> decide +kernel

theorem iterate_next_ne_zero {s : Word} (hs : s ≠ 0#16) (k : Nat) : Lfsr.next^[k] s ≠ 0#16 :=
  Function.Iterate.rec (fun w => w ≠ 0#16) hs (fun _ hw => next_ne_zero hw) k

theorem toNat_pos_iff {s : Word} : 0 < s.toNat ↔ s ≠ 0#16 := by
  rw [Nat.pos_iff_ne_zero, ne_eq, ne_eq, ← BitVec.toNat_inj, BitVec.toNat_ofNat, Nat.zero_mod]

/-- An orbit of 65535 nonzero words is all of them, for there are only 65535. -/
theorem exists_iterate_next_of_period {s : Word} (hs : s ≠ 0#16) (hperiod : Function.minimalPeriod Lfsr.next s = 65535)
    {t : Word} (ht : t ≠ 0#16) : ∃ i < 65535, Lfsr.next^[i] s = t := by
  have hmaps : Set.MapsTo (fun i => (Lfsr.next^[i] s).toNat) (Finset.range 65535) (Finset.Ioo 0 65536) := fun i _ =>
    Finset.mem_coe.2 (Finset.mem_Ioo.2 ⟨toNat_pos_iff.2 (iterate_next_ne_zero hs i), BitVec.isLt _⟩)
  have hinj : Set.InjOn (fun i => (Lfsr.next^[i] s).toNat) (Finset.range 65535) := by
    rw [Finset.coe_range, ← hperiod]
    exact BitVec.toNat_injective.injOn.comp Function.iterate_injOn_Iio_minimalPeriod fun _ _ => Set.mem_univ _
  have hsurj := Finset.surjOn_of_injOn_of_card_le _ hmaps hinj (by simp)
  obtain ⟨i, hi, hit⟩ := hsurj (Finset.mem_coe.2 (Finset.mem_Ioo.2 ⟨toNat_pos_iff.2 ht, t.isLt⟩))
  exact ⟨i, Finset.mem_range.1 (Finset.mem_coe.1 hi), BitVec.eq_of_toNat_eq hit⟩

/-- R46: from a nonzero word 65535 steps of `next` are the first that return to it. -/
theorem minimalPeriod_next {s : Word} (hs : s ≠ 0#16) : Function.minimalPeriod Lfsr.next s = 65535 := by
  obtain ⟨i, -, rfl⟩ := exists_iterate_next_of_period (by decide) minimalPeriod_next_one hs
  have hpos : 1#16 ∈ Function.periodicPts Lfsr.next :=
    Function.minimalPeriod_pos_iff_mem_periodicPts.1 (by rw [minimalPeriod_next_one]; decide)
  rw [Function.minimalPeriod_apply_iterate hpos, minimalPeriod_next_one]

/-- R46: every nonzero word is reached from every other within 65535 steps. -/
theorem exists_iterate_next {s t : Word} (hs : s ≠ 0#16) (ht : t ≠ 0#16) : ∃ i < 65535, Lfsr.next^[i] s = t :=
  exists_iterate_next_of_period hs (minimalPeriod_next hs) ht

/-! A build from a nonzero word completes (R55). -/

theorem lt_of_buildLoop_none {n fuel count draws : Nat} {seq : Memory} {l : Word}
    (h : buildLoop n fuel count draws seq l = none) : count < n := by
  by_contra hge
  simp [buildLoop_done hge] at h

/-- Where the build loop runs out of draws, a store of fewer than `n` slots holds every candidate drawn. -/
theorem buildLoop_none {n fuel count draws : Nat} {seq : Memory} {l : Word} (hcount : Memory.popcount seq = count)
    (h : buildLoop n fuel count draws seq l = none) :
    ∃ final : Memory, Memory.popcount final < n ∧ seq ⊆ final ∧
      ∀ i < fuel, candidate n (Lfsr.next^[i + 1] l) ∈ final := by
  have hlt := lt_of_buildLoop_none h
  induction fuel generalizing count draws seq l with
  | zero => exact ⟨seq, hcount ▸ hlt, List.Subset.refl _, fun _ hi => absurd hi (Nat.not_lt_zero _)⟩
  | succ fuel ih =>
    obtain ⟨seq', count', hcount', hkept, hdrawn, hrest⟩ : ∃ seq' count', Memory.popcount seq' = count' ∧ seq ⊆ seq' ∧
        candidate n (Lfsr.next l) ∈ seq' ∧ buildLoop n fuel count' (draws + 1) seq' (Lfsr.next l) = none := by
      cases hbit : Memory.bit seq (candidate n (Lfsr.next l)) with
      | true =>
        exact ⟨seq, count, hcount, List.Subset.refl _, (bit_eq_true_iff _ _).1 hbit,
          (buildLoop_collide hlt hbit).symm.trans h⟩
      | false =>
        exact ⟨_, count + 1, by rw [popcount_set_of_clear hbit, hcount], fun _ hp => (mem_set _ _ _).2 (.inr hp),
          (mem_set _ _ _).2 (.inl rfl), (buildLoop_set hlt hbit).symm.trans h⟩
    obtain ⟨final, hsize, hsub, hcand⟩ := ih hcount' hrest (lt_of_buildLoop_none hrest)
    refine ⟨final, hsize, List.Subset.trans hkept hsub, fun i hi => ?_⟩
    cases i with
    | zero => exact hsub hdrawn
    | succ i => exact hcand i (Nat.lt_of_succ_lt_succ hi)

/-- A legal `N` is a power of two up to `2^14` (R5). -/
theorem legalLengths_pow {n : Nat} (h : n ∈ legalLengths) : ∃ k ≤ 14, n = 2 ^ k := by
  obtain ⟨k, hk, rfl⟩ := List.mem_map.1 h
  exact ⟨k, Nat.le_of_lt_succ (List.mem_range.1 hk), rfl⟩

/-- `4N = 2^CW` in a legal block (R6). -/
theorem four_mul_eq_two_pow {n : Nat} (h : n ∈ legalLengths) : 4 * n = 2 ^ counterWidth n := by
  obtain ⟨k, -, rfl⟩ := legalLengths_pow h
  have hpow : 4 * 2 ^ k = 2 ^ (k + 2) := by ring
  rw [counterWidth, hpow, Nat.log2_two_pow]

/-- The mask of a legal block keeps the low `CW` bits of a draw (R6, R51). -/
theorem candidate_eq_mod {n : Nat} (h : n ∈ legalLengths) (d : Word) : candidate n d = d.toNat % (4 * n) := by
  rw [candidate, slotMask, four_mul_eq_two_pow h, Nat.and_two_pow_sub_one_eq_mod]

/-- Each of the slots `1` to `N` is the candidate of one of the 65535 draws from a nonzero word. -/
theorem exists_draw_of_slot {n : Nat} (hn : n ∈ legalLengths) {l : Word} (hl : l ≠ 0#16) {p : Nat} (hp : 0 < p)
    (hpn : p ≤ n) : ∃ i < 65535, candidate n (Lfsr.next^[i + 1] l) = p := by
  have hword : (BitVec.ofNat 16 p).toNat = p := by
    obtain ⟨k, hk, rfl⟩ := legalLengths_pow hn
    have := Nat.pow_le_pow_right (n := 2) (by decide) hk
    rw [BitVec.toNat_ofNat, Nat.mod_eq_of_lt (by omega)]
  have hne : BitVec.ofNat 16 p ≠ 0#16 := toNat_pos_iff.1 (by rwa [hword])
  obtain ⟨i, hi, hdraw⟩ := exists_iterate_next (next_ne_zero hl) hne
  refine ⟨i, hi, ?_⟩
  rw [Function.iterate_succ_apply, hdraw, candidate_eq_mod hn, hword, Nat.mod_eq_of_lt (by omega)]

/-- R55: a build from a nonzero word completes. -/
theorem build_completes {n : Nat} (hn : n ∈ legalLengths) {l : Word} (hl : l ≠ 0#16) : ∃ b, build n l = some b := by
  refine Option.ne_none_iff_exists'.1 fun hnone => ?_
  obtain ⟨final, hsize, -, hcand⟩ := buildLoop_none (seq := Memory.cleared) rfl hnone
  have hsub : Finset.Icc 1 n ⊆ final.toFinset := fun p hp => by
    obtain ⟨hpos, hle⟩ := Finset.mem_Icc.1 hp
    obtain ⟨i, hi, rfl⟩ := exists_draw_of_slot hn hl hpos hle
    exact List.mem_toFinset.2 (hcand i hi)
  have hcard : n ≤ final.length := by
    simpa using (Finset.card_le_card hsub).trans final.toFinset_card_le
  exact absurd hsize (Nat.not_lt_of_le hcard)

end Sys2Proof.Proofs
end

section
/-! PROOFS. The registers one by one: who writes `CNT` and `POL` (R13, R14), and what the observation port shows of the
registers, or refuses, in each phase (R20, R22). -/

namespace Sys2Proof.Proofs

open Sys2Proof.Machine Sys2Proof.Laws

/-! `CNT` and `POL`: what a build and a TICK's increment leave of them. -/

/-- A build inside an operation that completes writes `SEQ` and `LFSR` only. -/
theorem runBuild_idle {s t : State} {r q : Regs} {o : Outputs} (h : runBuild s r o = .next t) (hq : t.ctl = .idle q) :
    q.cnt = r.cnt ∧ q.pol = r.pol ∧ t.out = o := by
  obtain ⟨b, -, hnext⟩ | ⟨-, hnext⟩ := runBuild_cases s r o <;> rw [hnext] at h <;> cases h <;> cases hq
  exact ⟨rfl, rfl, rfl⟩

/-- A TICK's increment writes `CNT`, wrapped at `4N`, and leaves `POL` and the outputs. -/
theorem tickAdvance_idle {s t : State} {r q : Regs} {o : Outputs} (h : tickAdvance s r o = .next t)
    (hq : t.ctl = .idle q) :
    q.cnt = (if r.cnt + 1 = slots s.cfg.n then 0 else r.cnt + 1) ∧ q.pol = r.pol ∧ t.out = o := by
  obtain ⟨heq, ha⟩ | ⟨hne, ha⟩ := tickAdvance_cases s r o <;> rw [ha] at h
  · rw [if_pos heq]
    exact runBuild_idle h hq
  · cases h
    cases hq
    exact ⟨(if_neg hne).symm, rfl, rfl⟩

/-- RESET leaves `CNT = 0` and `POL = POL0` (R85). -/
theorem exec_reset_idle {s t : State} {q : Regs} (h : exec .reset s = .next t) (hq : t.ctl = .idle q) :
    q.cnt = 0 ∧ q.pol = s.cfg.pol0 := by
  obtain ⟨-, ⟨hbuild⟩⟩ := exec_next h
  obtain ⟨hcnt, hpol, -⟩ := runBuild_idle hbuild hq
  exact ⟨hcnt, hpol⟩

/-- What a command other than RESET leaves of `CNT`, `POL` and the history: TICK alone writes `CNT`, and `POL` flips with the
event of a pulse, which only TICK and PULSE emit. -/
theorem exec_idle_writes {i : Instr} {s t : State} {r q : Regs} (hi : i ≠ .reset) (h : exec i s = .next t)
    (hc : s.ctl = .idle r) (hq : t.ctl = .idle q) :
    (q.cnt = if i = .tick then (if r.cnt + 1 = slots s.cfg.n then 0 else r.cnt + 1) else r.cnt) ∧
    ((t.out.history = s.out.history ∧ q.pol = r.pol) ∨
      (t.out.history = s.out.history ++ [terminalOf r.pol] ∧ q.pol = !r.pol ∧ (i = .tick ∨ i = .pulse))) := by
  obtain ⟨-, hran⟩ := exec_next h
  cases hran with
  | reset => exact absurd rfl hi
  | nop hc' | step hc' =>
    cases hc.symm.trans hc'
    cases hq
    exact ⟨rfl, .inl ⟨rfl, rfl⟩⟩
  | tick hc' hlookup hadvance =>
    cases hc.symm.trans hc'
    obtain ⟨hcnt, hpol, hout⟩ := tickAdvance_idle hadvance hq
    rw [if_pos rfl, hout]
    obtain rfl | rfl := tickLookup_some hlookup
    · exact ⟨hcnt, .inr ⟨outputs_pulse_history _ _, hpol, .inl rfl⟩⟩
    · exact ⟨hcnt, .inl ⟨rfl, hpol⟩⟩
  | build hc' hbuild =>
    cases hc.symm.trans hc'
    obtain ⟨hcnt, hpol, hout⟩ := runBuild_idle hbuild hq
    exact ⟨hcnt, .inl ⟨by rw [hout], hpol⟩⟩
  | pulse hc' =>
    cases hc.symm.trans hc'
    cases hq
    exact ⟨rfl, .inr ⟨outputs_pulse_history _ _, rfl, .inr rfl⟩⟩

/-- Settles O33: the bound is the invariant's, and what each command writes gives the value. -/
theorem counterIsWrittenOnlyByTickAndReset : Obligations.CounterIsWrittenOnlyByTickAndReset := by
  intro i s t q hs h hq
  have hlt : q.cnt < 4 * s.cfg.n := exec_cfg h ▸ ((exec_inv hs h).regs q hq).cnt_lt
  refine ⟨hlt, four_mul_eq_two_pow hs.legal.1, ?_, fun r hc => ⟨?_, fun htick hreset => ?_⟩⟩
  · rintro rfl
    exact (exec_reset_idle h hq).1
  · rintro rfl
    exact (exec_idle_writes (by decide) h hc hq).1
  · rw [(exec_idle_writes hreset h hc hq).1, if_neg htick]

/-- Settles O34: RESET reloads `POL0`; every other command flips `POL` exactly with the event it emits. -/
theorem polarityFlipsExactlyOnActuation : Obligations.PolarityFlipsExactlyOnActuation := by
  intro i s t q h hq
  refine ⟨?_, fun r hc hi => (exec_idle_writes hi h hc hq).2⟩
  rintro rfl
  exact (exec_reset_idle h hq).2

/-! The observation port. -/

theorem observe_idle {α : Type} {s : State} {r : Regs} (hl : Legal s.cfg) (hc : s.ctl = .idle r) (f : Regs → α) :
    observe s f = .ok (f r) := by
  unfold observe; rw [if_pos hl]; simp only [hc]

theorem observe_uninit {α : Type} {s : State} (hl : Legal s.cfg) (hc : s.ctl = .uninit) (f : Regs → α) :
    observe s f = .error .uninitialised := by
  unfold observe; rw [if_pos hl]; simp only [hc]

/-- A byte read that `observe` refuses is refused so. -/
theorem obsSeqByte_error {s : State} {why : Refusal} (h : observe s Regs.seq = .error why) (k : Nat) :
    obsSeqByte s k = .error why := by
  unfold obsSeqByte; rw [h]

theorem obsSeqByte_ok {s : State} {seq : Memory} (h : observe s Regs.seq = .ok seq) (k : Nat) :
    obsSeqByte s k =
      if k < numBytes s.cfg.n then .ok (Memory.byte (slots s.cfg.n) seq k) else .error (.byteOutOfRange k) := by
  unfold obsSeqByte; rw [h]

/-- Bit `p` of the flat vector is slot `p` (R20). -/
theorem getLsbD_vector {size p : Nat} (hp : p < size) (m : Memory) :
    (Memory.vector size m).getLsbD p = Memory.bit m p := by
  induction m with
  | nil => simp [Memory.vector, Memory.bit]
  | cons a rest ih =>
    have hcons : Memory.vector size (a :: rest) = Memory.vector size rest ||| BitVec.twoPow size a := rfl
    rw [hcons, BitVec.getLsbD_or, ih, Bool.eq_iff_iff]
    simp [bit_eq_true_iff, hp, or_comm, eq_comm (a := p) (b := a)]

/-- Settles O32: the port shows the registers as they are, and the invariant gives that `CNT` fits its `CW` bits. -/
theorem observationPortShowsTheRegisters : Obligations.ObservationPortShowsTheRegisters := by
  refine ⟨fun s => beq_iff_eq, fun s r hs hc => ?_⟩
  have observed {α : Type} (f : Regs → α) : observe s f = .ok (f r) := observe_idle hs.legal hc f
  have hbyte := obsSeqByte_ok (observed Regs.seq)
  refine ⟨observed _, ⟨_, observed _, ?_⟩, observed _, ⟨_, observed _, fun p hp => getLsbD_vector hp _⟩,
    fun k hk => (hbyte k).trans (if_pos hk), fun k hk => (hbyte k).trans (if_neg (Nat.not_lt_of_le hk))⟩
  rw [BitVec.toNat_ofNat, ← four_mul_eq_two_pow hs.legal.1]
  exact Nat.mod_eq_of_lt (hs.regs r hc).cnt_lt

/-! The `UNINIT` phase. -/

/-- Every assigned command but RESET is gated by `whenIdle` (R22, R87, R90). -/
theorem exec_eq_whenIdle {i : Instr} (hi : i ≠ .reset) (hw : i.wellFormed = true) (s : State) :
    ∃ k, exec i s = whenIdle s k := by
  cases i with
  | reset => exact absurd rfl hi
  | nop | tick | step | build | pulse => exact ⟨_, rfl⟩
  | reserved0101 | reserved0110 | reserved0111 => cases hw

/-- A reserved input is refused in every state (R40). -/
theorem exec_reserved {i : Instr} (hw : i.wellFormed = false) (s : State) :
    exec i s = .refused (.reservedInput (encode i)) := by
  cases i with
  | reserved0101 | reserved0110 | reserved0111 => rfl
  | reset | nop | tick | step | build | pulse => cases hw

/-- Settles O22: the gate of the commands and of the port refuses, and RESET's build completes for its seed is nonzero. -/
theorem uninitAcceptsOnlyReset : Obligations.UninitAcceptsOnlyReset := by
  refine ⟨fun _ => rfl, fun s hl hphase => ?_⟩
  have hc := (phase_eq_uninit_iff s).1 hphase
  have refused (i : Instr) (hi : i ≠ .reset) (hw : i.wellFormed = true) : exec i s = .refused .uninitialised := by
    obtain ⟨k, hk⟩ := exec_eq_whenIdle hi hw s
    exact hk.trans (whenIdle_uninit hl hc k)
  have hbyte := obsSeqByte_error (observe_uninit hl hc Regs.seq)
  refine ⟨?_, refused, fun i hi => ?_, observe_uninit hl hc _, observe_uninit hl hc _, observe_uninit hl hc _,
    observe_uninit hl hc _, fun k _ => hbyte k, fun k => ⟨_, hbyte k⟩⟩
  · obtain ⟨b, hb⟩ := build_completes hl.1 hl.2
    exact ⟨_, exec_reset_build hl hb, rfl⟩
  · cases hw : i.wellFormed with
    | true => exact ⟨_, refused i hi hw⟩
    | false => exact ⟨_, exec_reserved hw s⟩

end Sys2Proof.Proofs
end

section
/-! PROOFS. The byte view of `SEQ` (R26): which slot each bit of each byte holds. -/

namespace Sys2Proof.Proofs

open Sys2Proof.Machine Sys2Proof.Laws

/-- Setting the bits of a list that satisfy `P` sets bit `i` exactly when `i` is listed and satisfies `P`. -/
theorem getLsbD_foldr_twoPow {w i : Nat} (hi : i < w) (P : Nat → Prop) [DecidablePred P] (js : List Nat) :
    (js.foldr (fun j acc => if P j then acc ||| BitVec.twoPow w j else acc) 0).getLsbD i = decide (i ∈ js ∧ P i) := by
  induction js with
  | nil => simp
  | cons j js ih =>
    rw [List.foldr_cons, apply_ite (BitVec.getLsbD · i), BitVec.getLsbD_or, ih]
    by_cases hij : i = j
    · subst hij
      by_cases hP : P i <;> simp [hP, hi]
    · simp [BitVec.getLsbD_twoPow, hij, Ne.symm hij]

/-- Bit `j` of byte `k` is slot `8k + j`, and 0 past the last slot (R26). -/
theorem getLsbD_byte {j : Nat} (hj : j < 8) (size : Nat) (m : Memory) (k : Nat) :
    (Memory.byte size m k).getLsbD j = (decide (8 * k + j < size) && Memory.bit m (8 * k + j)) := by
  unfold Memory.byte
  rw [getLsbD_foldr_twoPow hj (fun j => 8 * k + j < size ∧ Memory.bit m (8 * k + j) = true)]
  simp [hj]

theorem byteIndex_eq_div (p : Nat) : byteIndex p = p / 8 := Nat.shiftRight_eq_div_pow p 3

theorem bitIndex_eq_mod (p : Nat) : bitIndex p = p % 8 := Nat.and_two_pow_sub_one_eq_mod p 3

/-- The byte index and the bit index of a slot name the slot (R26). -/
theorem byteIndex_bitIndex (p : Nat) : 8 * byteIndex p + bitIndex p = p := by
  rw [byteIndex_eq_div, bitIndex_eq_mod, Nat.div_add_mod]

theorem bitIndex_lt (p : Nat) : bitIndex p < 8 := by
  rw [bitIndex_eq_mod]; exact Nat.mod_lt p (by decide)

/-- From two seconds on the slots fill whole bytes, two seconds to a byte (R26). -/
theorem numBytes_eq_half {n : Nat} (hn : 2 ≤ n) : numBytes n = n / 2 := by
  unfold numBytes slots; omega

/-- Settles O31: the bits of a byte are its eight slots, and a slot's two indices lead back to the slot. -/
theorem byteViewIsLeastSignificantBitFirst : Obligations.ByteViewIsLeastSignificantBitFirst := by
  refine ⟨fun size m k j hj => getLsbD_byte hj size m k, fun size m p hp => ?_,
    fun p => ⟨byteIndex_eq_div p, bitIndex_eq_mod p⟩, rfl, rfl, fun n _ hn => numBytes_eq_half hn, by decide, by decide⟩
  rw [getLsbD_byte (bitIndex_lt p), byteIndex_bitIndex, decide_eq_true hp, Bool.true_and]

end Sys2Proof.Proofs
end

section
/-! PROOFS. The command map (R37, R41): a word with `IN[3] = 1` is RESET, a word with `IN[3] = 0` is the code of exactly one
command; and the three reserved codes (R40). -/

namespace Sys2Proof.Proofs

open Sys2Proof.Machine Sys2Proof.Laws

/-- `rst = 1` is RESET whatever `cmd` holds (R41). -/
theorem decode_of_rstBit {w : StepInput} (h : rstBit w = true) : decode w = .reset := if_pos h

/-- The first bit of a word written as `rst ++ cmd` is the restart request (R35). -/
theorem rstBit_append (rst : BitVec 1) (cmd : BitVec 3) : rstBit (rst ++ cmd) = rst.getLsbD 0 :=
  BitVec.getLsbD_append

/-- The word of a command decodes to the command (R37). -/
theorem decode_encode (i : Instr) : decode (encode i) = i := by
  cases i <;> rfl

/-- With `rst = 0` a word is the code of the command it decodes to: no two codes share a command (R37). -/
theorem encode_decode : ∀ {w : StepInput}, rstBit w = false → encode (decode w) = w := by decide

/-- The words of `IN4` that no assigned command answers are the three reserved codes (R40). -/
theorem wellFormed_decode_eq_false_iff (w : StepInput) :
    (decode w).wellFormed = false ↔ w = 0b0101#4 ∨ w = 0b0110#4 ∨ w = 0b0111#4 := by
  constructor
  · intro hw
    have hrst : rstBit w = false := by
      refine Bool.eq_false_iff.2 fun h => ?_
      rw [decode_of_rstBit h] at hw
      cases hw
    rw [← encode_decode hrst]
    cases hi : decode w with
    | reserved0101 => exact .inl rfl
    | reserved0110 => exact .inr (.inl rfl)
    | reserved0111 => exact .inr (.inr rfl)
    | reset | nop | tick | step | build | pulse => rw [hi] at hw; cases hw
  · rintro (rfl | rfl | rfl) <;> rfl

/-- Settles O24: a reserved command answers its own word in every state, and an unassigned word has `rst = 0`, so it is the
code of a reserved command. -/
theorem reservedInputsAreRefused : Obligations.ReservedInputsAreRefused :=
  ⟨decode_encode .reserved0101, decode_encode .reserved0110, decode_encode .reserved0111,
    fun s => ⟨⟨_, exec_reserved rfl s⟩, ⟨_, exec_reserved rfl s⟩, ⟨_, exec_reserved rfl s⟩⟩,
    fun s _ _ => ⟨exec_reserved rfl s, exec_reserved rfl s, exec_reserved rfl s⟩,
    wellFormed_decode_eq_false_iff⟩

/-- Settles O25: the restart bit decides alone, and each other row of the map is the code of its command. -/
theorem stepInputSelectsTheOperation : Obligations.StepInputSelectsTheOperation :=
  ⟨fun cmd => decode_of_rstBit (rstBit_append 1#1 cmd), decode_encode .nop, decode_encode .tick, decode_encode .step,
    decode_encode .build, decode_encode .pulse, decode_encode .reserved0101, decode_encode .reserved0110,
    decode_encode .reserved0111⟩

end Sys2Proof.Proofs
end

section
/-! PROOFS. The generator as a function: what `next` and `prev` do to each bit and that they undo each other (R43, R45),
the one cycle of the nonzero words (R46, R47), and what a shift does to the candidates (R48). -/

namespace Sys2Proof.Proofs

open Sys2Proof.Machine Sys2Proof.Laws

/-! The bits of `next` and `prev`. -/

theorem getLsbD_next_top (s : Word) : (Lfsr.next s).getLsbD 15 = Lfsr.feedback s := by
  rw [getLsbD_next, if_pos rfl]

theorem getLsbD_next_low {j : Nat} (hj : j < 15) (s : Word) : (Lfsr.next s).getLsbD j = s.getLsbD (j + 1) := by
  rw [getLsbD_next, if_neg hj.ne]

theorem getLsbD_prev_zero (t : Word) : (Lfsr.prev t).getLsbD 0 = Lfsr.lostBit t := by
  unfold Lfsr.prev
  rw [BitVec.getLsbD_or, BitVec.getLsbD_shiftLeft, BitVec.getLsbD_setWidth, BitVec.getLsbD_ofBool]
  simp

theorem getLsbD_prev_succ {j : Nat} (hj : j < 15) (t : Word) : (Lfsr.prev t).getLsbD (j + 1) = t.getLsbD j := by
  unfold Lfsr.prev
  rw [BitVec.getLsbD_or, BitVec.getLsbD_shiftLeft, BitVec.getLsbD_setWidth, BitVec.getLsbD_ofBool]
  simp [Nat.succ_lt_succ hj]

/-- Settles O1: the top bit and the others are the two cases of `getLsbD_next`. -/
theorem nextShiftsRightAndInsertsTheFeedbackBit : Obligations.NextShiftsRightAndInsertsTheFeedbackBit :=
  fun s => ⟨getLsbD_next_top s, fun _ hj => getLsbD_next_low hj s⟩

/-! `prev` is the inverse of `next` (R45). -/

theorem xor_three_cancel : ∀ a b c d : Bool, ((a ^^ b ^^ c ^^ d) ^^ b ^^ c ^^ d) = a := by decide

/-- The bit that `next` shifts out is the feedback bit it inserts, less the other three tapped bits. -/
theorem lostBit_next (s : Word) : Lfsr.lostBit (Lfsr.next s) = s.getLsbD 0 := by
  rw [Lfsr.lostBit, getLsbD_next_top, getLsbD_next_low (by decide), getLsbD_next_low (by decide),
    getLsbD_next_low (by decide), Lfsr.feedback, xor_three_cancel]

/-- The feedback bit of `prev t` is the top bit that `prev` shifted out of `t`. -/
theorem feedback_prev (t : Word) : Lfsr.feedback (Lfsr.prev t) = t.getLsbD 15 := by
  rw [Lfsr.feedback, getLsbD_prev_zero, getLsbD_prev_succ (by decide), getLsbD_prev_succ (by decide),
    getLsbD_prev_succ (by decide), Lfsr.lostBit, xor_three_cancel]

theorem prev_next (s : Word) : Lfsr.prev (Lfsr.next s) = s := by
  refine BitVec.eq_of_getLsbD_eq fun j hj => ?_
  cases j with
  | zero => rw [getLsbD_prev_zero, lostBit_next]
  | succ j => rw [getLsbD_prev_succ (by omega), getLsbD_next_low (by omega)]

theorem next_prev (t : Word) : Lfsr.next (Lfsr.prev t) = t := by
  refine BitVec.eq_of_getLsbD_eq fun j hj => ?_
  obtain rfl | hlow : j = 15 ∨ j < 15 := by omega
  · rw [getLsbD_next_top, feedback_prev]
  · rw [getLsbD_next_low hlow, getLsbD_prev_succ hlow]

theorem next_zero : Lfsr.next 0#16 = 0#16 := next_linear.map_zero

/-- Settles O2: the bits of `prev`, and the two compositions bit by bit, which make `next` a bijection. -/
theorem prevIsTheInverseOfNext : Obligations.PrevIsTheInverseOfNext :=
  ⟨fun t => ⟨getLsbD_prev_zero t, fun _ hj => getLsbD_prev_succ hj t⟩, prev_next, next_prev,
    Function.bijective_iff_has_inverse.2 ⟨Lfsr.prev, prev_next, next_prev⟩, next_zero,
    fun _ hs => iterate_next_ne_zero hs⟩

/-! The cycle (R46) and the fixed point (R47). -/

/-- 65535 steps of `next` return every word, the fixed point zero included. -/
theorem iterate_next_65535 (s : Word) : Lfsr.next^[65535] s = s := by
  by_cases hs : s = 0#16
  · rw [hs, Function.iterate_fixed next_zero]
  · have hreturn := Function.iterate_minimalPeriod (f := Lfsr.next) (x := s)
    rwa [minimalPeriod_next hs] at hreturn

/-- Settles O3: the minimal period of a nonzero word is 65535, and its orbit is every nonzero word. -/
theorem nonzeroWordsFormOneCycleOf65535 : Obligations.NonzeroWordsFormOneCycleOf65535 := by
  refine fun s hs => ⟨iterate_next_65535 s, fun i hpos hi => ?_, fun t ht => exists_iterate_next hs ht⟩
  exact Function.not_isPeriodicPt_of_pos_of_lt_minimalPeriod hpos.ne' (by rwa [minimalPeriod_next hs])

/-- A nonzero fixed point would have period 1, not 65535. -/
theorem next_eq_self_iff (s : Word) : Lfsr.next s = s ↔ s = 0#16 := by
  refine ⟨fun hfix => by_contra fun hs => ?_, fun hs => hs ▸ next_zero⟩
  have hone := Function.minimalPeriod_eq_one_iff_isFixedPt.2 hfix
  rw [minimalPeriod_next hs] at hone
  cases hone

/-- A build inside an operation keeps the generator nonzero. -/
theorem runBuild_lfsr_ne_zero {s t : State} {r q : Regs} {o : Outputs} (hr : r.lfsr ≠ 0#16)
    (h : runBuild s r o = .next t) (hq : t.ctl = .idle q) : q.lfsr ≠ 0#16 := by
  obtain ⟨b, hb, hnext⟩ | ⟨-, hnext⟩ := runBuild_cases s r o <;> rw [hnext] at h <;> cases h <;> cases hq
  exact build_lfsr_ne_zero hr hb

/-- A TICK's increment keeps the generator nonzero, through the window-end rebuild too. -/
theorem tickAdvance_lfsr_ne_zero {s t : State} {r q : Regs} {o : Outputs} (hr : r.lfsr ≠ 0#16)
    (h : tickAdvance s r o = .next t) (hq : t.ctl = .idle q) : q.lfsr ≠ 0#16 := by
  obtain ⟨-, ha⟩ | ⟨-, ha⟩ := tickAdvance_cases s r o <;> rw [ha] at h
  · exact runBuild_lfsr_ne_zero (r := { r with cnt := 0 }) hr h hq
  · cases h
    cases hq
    exact hr

theorem tickLookup_lfsr {s : State} {r : Regs} {after : Regs × Outputs} (h : tickLookup s r = some after) :
    after.1.lfsr = r.lfsr := by
  obtain rfl | rfl := tickLookup_some h <;> rfl

/-- No command makes the generator zero; RESET loads a legal, so nonzero, seed (R47). -/
theorem exec_lfsr_ne_zero {i : Instr} {s t : State} {q : Regs} (hs : ∀ r, s.ctl = .idle r → r.lfsr ≠ 0#16)
    (h : exec i s = .next t) (hq : t.ctl = .idle q) : q.lfsr ≠ 0#16 := by
  obtain ⟨hl, hran⟩ := exec_next h
  cases hran with
  | reset hbuild => exact runBuild_lfsr_ne_zero hl.2 hbuild hq
  | nop hc => cases hq; exact hs _ hc
  | tick hc hlookup hadvance => exact tickAdvance_lfsr_ne_zero (tickLookup_lfsr hlookup ▸ hs _ hc) hadvance hq
  | step hc => cases hq; exact next_ne_zero (hs _ hc)
  | build hc hbuild => exact runBuild_lfsr_ne_zero (hs _ hc) hbuild hq
  | pulse hc => cases hq; rw [pulse_fst_lfsr]; exact hs _ hc

/-- Settles O4: a nonzero fixed point would contradict the period, and no command makes the generator zero. -/
theorem zeroIsTheOnlyFixedPointAndIsNeverReached : Obligations.ZeroIsTheOnlyFixedPointAndIsNeverReached := by
  refine ⟨next_eq_self_iff, fun s t h hs q hq => ?_⟩
  obtain ⟨-, -, rfl⟩ | ⟨w, rest, -, hexec⟩ := step_next_cases h
  · exact hs q hq
  · exact exec_lfsr_ne_zero (s := { s with inputs := rest }) hs hexec hq

/-! The candidates of consecutive draws (R48). -/

/-- A candidate is the low `CW` bits of its draw. -/
theorem testBit_candidate {n : Nat} (hn : n ∈ legalLengths) (d : Word) (i : Nat) :
    (candidate n d).testBit i = (d.getLsbD i && decide (i < counterWidth n)) := by
  rw [candidate, slotMask, four_mul_eq_two_pow hn, Nat.testBit_and, Nat.testBit_two_pow_sub_one, BitVec.testBit_toNat]

/-- While the mask leaves bit 15 out, the next draw's candidate is this draw shifted right and masked. -/
theorem candidate_next {n : Nat} (hn : n ∈ legalLengths) (hcw : counterWidth n ≤ 15) (d : Word) :
    candidate n (Lfsr.next d) = (d.toNat >>> 1) &&& (4 * n - 1) := by
  refine Nat.eq_of_testBit_eq fun i => ?_
  rw [testBit_candidate hn, four_mul_eq_two_pow hn, Nat.testBit_and, Nat.testBit_two_pow_sub_one,
    Nat.testBit_shiftRight, BitVec.testBit_toNat, Nat.add_comm 1 i]
  by_cases hi : i < counterWidth n
  · rw [getLsbD_next_low (hi.trans_le hcw)]
  · simp [hi]

/-- At `N = 16384` the candidate is the whole draw, so its top bit is the feedback bit. -/
theorem testBit_candidate_next_16384 (d : Word) :
    (candidate 16384 (Lfsr.next d)).testBit 15 = Lfsr.feedback d := by
  rw [testBit_candidate (by decide), getLsbD_next_top]
  exact Bool.and_true _

/-- Settles O5: the bits of `next` under the mask; the twelve draws from `0x0001` carry its one bit from bit 15 down to
bit 4, above the mask of `N = 4`. -/
theorem consecutiveDrawsShiftTheCandidate : Obligations.ConsecutiveDrawsShiftTheCandidate := by
  refine ⟨fun d j hj => getLsbD_next_low (Nat.lt_succ_of_le hj) d, fun n hn hcw => candidate_next hn hcw,
    testBit_candidate_next_16384, ?_⟩
  decide

end Sys2Proof.Proofs
end

section
/-! PROOFS. The command STEP (R50): one draw and nothing else, once and presented many times. -/

namespace Sys2Proof.Proofs

open Sys2Proof.Machine Sys2Proof.Laws

/-- STEP in a legal idle block answers the state with one draw made. -/
theorem exec_step_idle {s : State} {r : Regs} (hl : Legal s.cfg) (hc : s.ctl = .idle r) :
    exec .step s = .next { s with ctl := .idle { r with lfsr := Lfsr.next r.lfsr } } :=
  whenIdle_idle hl hc _

/-- A step at which a word is presented runs the word's command with the word consumed (R34). -/
theorem step_cons {s : State} {w : StepInput} {rest : List StepInput} (h : s.inputs = w :: rest) :
    Machine.step s = exec (decode w) { s with inputs := rest } := by
  unfold Machine.step
  rw [fetch_cons h]

/-- `k` presented STEPs draw `k` times and consume their inputs. -/
theorem run_replicate_step {k : Nat} {s : State} {r : Regs} {rest : List StepInput} (hl : Legal s.cfg)
    (hc : s.ctl = .idle r) (hin : s.inputs = List.replicate k 0b0010#4 ++ rest) :
    run k s = .next { s with ctl := .idle { r with lfsr := Lfsr.next^[k] r.lfsr }, inputs := rest } := by
  induction k generalizing s r with
  | zero =>
    obtain rfl : s.inputs = rest := hin
    rw [run_zero, Function.iterate_zero_apply, ← hc]
  | succ k ih =>
    have hstep : Machine.step s =
        .next { s with
          ctl := .idle { r with lfsr := Lfsr.next r.lfsr }, inputs := List.replicate k 0b0010#4 ++ rest } :=
      (step_cons hin).trans (exec_step_idle hl hc)
    rw [run_succ_next hstep, Function.iterate_succ_apply]
    exact ih (r := { r with lfsr := Lfsr.next r.lfsr }) (by exact hl) rfl rfl

/-- Settles O6: the draw of STEP, and 65535 draws return every word. -/
theorem stepCommandDrawsOnceAndNothingElse : Obligations.StepCommandDrawsOnceAndNothingElse := by
  refine ⟨decode_encode .step, fun s r hl hc => ⟨exec_step_idle hl hc, fun rest hin => ?_⟩, next_zero, ?_⟩
  · rw [run_replicate_step hl hc hin, iterate_next_65535, ← hc]
  · decide

end Sys2Proof.Proofs
end

section
/-! PROOFS. The build (R51, R53, R54): after `D` draws the loop holds exactly the candidates of those draws, so it ends at the
first `D` that gives `N` of them, and never if none does. -/

namespace Sys2Proof.Proofs

open Sys2Proof.Machine Sys2Proof.Laws

/-! The candidates of the first draws, one draw at a time. -/

/-- One more draw adds its candidate (R51 step 2b). -/
theorem candidatesOf_succ (n : Nat) (l : Word) (D : Nat) :
    candidatesOf n l (D + 1) = insert (candidate n (Lfsr.next^[D + 1] l)) (candidatesOf n l D) := by
  rw [candidatesOf, Finset.range_add_one, Finset.image_insert, ← candidatesOf]

theorem card_candidatesOf_succ_of_mem {n : Nat} {l : Word} {D : Nat}
    (h : candidate n (Lfsr.next^[D + 1] l) ∈ candidatesOf n l D) :
    (candidatesOf n l (D + 1)).card = (candidatesOf n l D).card := by
  rw [candidatesOf_succ, Finset.insert_eq_of_mem h]

theorem card_candidatesOf_succ_of_notMem {n : Nat} {l : Word} {D : Nat}
    (h : candidate n (Lfsr.next^[D + 1] l) ∉ candidatesOf n l D) :
    (candidatesOf n l (D + 1)).card = (candidatesOf n l D).card + 1 := by
  rw [candidatesOf_succ, Finset.card_insert_of_notMem h]

/-- Every draw either collides or adds a slot (R54 (b)). -/
theorem card_candidatesOf_add_collisionsOf (n : Nat) (l : Word) (D : Nat) :
    (candidatesOf n l D).card + collisionsOf n l D = D := by
  induction D with
  | zero => rfl
  | succ D ih =>
    rw [collisionsOf, Finset.range_add_one, Finset.filter_insert]
    split
    · next hmem =>
      rw [card_candidatesOf_succ_of_mem hmem,
        Finset.card_insert_of_notMem fun hD => Finset.notMem_range_self (Finset.mem_filter.1 hD).1, ← collisionsOf]
      omega
    · next hnew =>
      rw [card_candidatesOf_succ_of_notMem hnew, ← collisionsOf]
      omega

/-- The generator returns after `buildFuel` draws (R46), so no draw past them has a new candidate. -/
theorem candidatesOf_subset_buildFuel (n : Nat) (l : Word) (D : Nat) :
    candidatesOf n l D ⊆ candidatesOf n l buildFuel := by
  refine Finset.image_subset_iff.2 fun i _ => Finset.mem_image.2 ⟨i % 65535, ?_, ?_⟩
  · exact Finset.mem_range.2 (Nat.mod_lt i (by decide))
  · have hperiod : Lfsr.next^[i % 65535] l = Lfsr.next^[i] l :=
      Function.IsPeriodicPt.iterate_mod_apply (iterate_next_65535 l) i
    rw [Function.iterate_succ_apply', hperiod, ← Function.iterate_succ_apply' Lfsr.next]

/-! The build loop after `D` draws. -/

/-- What the build from `l` holds after `D` draws: the slots those draws had as candidates, and the last draw. -/
def resultAfter (n : Nat) (l : Word) (D : Nat) : BuildResult :=
  { seq := (candidatesOf n l D).sort (· ≤ ·), lfsr := Lfsr.next^[D] l, draws := D }

/-- The loop of the build from `l` entered with `D` draws consumed. -/
def loopAfter (n : Nat) (l : Word) (fuel D : Nat) : Option BuildResult :=
  buildLoop n fuel (candidatesOf n l D).card D (resultAfter n l D).seq (resultAfter n l D).lfsr

theorem build_eq_loopAfter (n : Nat) (l : Word) : build n l = loopAfter n l buildFuel 0 := by
  simp [build, loopAfter, resultAfter, candidatesOf, Memory.cleared]

theorem resultAfter_seq (n : Nat) (l : Word) (D : Nat) :
    (resultAfter n l D).seq = (candidatesOf n l D).sort (· ≤ ·) := rfl

theorem mem_resultAfter_seq {n : Nat} {l : Word} {D p : Nat} :
    p ∈ (resultAfter n l D).seq ↔ p ∈ candidatesOf n l D := by
  rw [resultAfter_seq, Finset.mem_sort]

theorem resultAfter_seq_wf {n : Nat} (hn : 0 < n) (l : Word) (D : Nat) :
    Memory.wf (slots n) (resultAfter n l D).seq := by
  refine ⟨?_, fun p hp => ?_⟩
  · rw [resultAfter_seq]
    exact (Finset.sortedLT_sort _).pairwise
  · obtain ⟨i, -, rfl⟩ := Finset.mem_image.1 (mem_resultAfter_seq.1 hp)
    exact candidate_lt hn _

/-- A draw that collides leaves the store as it is (R51 step 2c). -/
theorem resultAfter_seq_succ_of_mem {n : Nat} {l : Word} {D : Nat}
    (h : candidate n (Lfsr.next^[D + 1] l) ∈ candidatesOf n l D) :
    (resultAfter n l (D + 1)).seq = (resultAfter n l D).seq := by
  rw [resultAfter_seq, candidatesOf_succ, Finset.insert_eq_of_mem h, ← resultAfter_seq]

/-- A draw that does not collide sets its candidate slot (R51 step 2d). -/
theorem resultAfter_seq_succ {n : Nat} (hn : 0 < n) (l : Word) (D : Nat) :
    (resultAfter n l (D + 1)).seq = Memory.set (resultAfter n l D).seq (candidate n (Lfsr.next^[D + 1] l)) := by
  refine wf_ext (resultAfter_seq_wf hn l _) (set_wf (resultAfter_seq_wf hn l D) (candidate_lt hn _)) fun p => ?_
  rw [Bool.eq_iff_iff, bit_eq_true_iff, bit_eq_true_iff, mem_set, mem_resultAfter_seq, mem_resultAfter_seq,
    candidatesOf_succ, Finset.mem_insert]

/-- While fewer than `n` slots are set, the loop goes on to the next draw. -/
theorem loopAfter_succ {n : Nat} {l : Word} {D : Nat} (h : (candidatesOf n l D).card < n) (fuel : Nat) :
    loopAfter n l (fuel + 1) D = loopAfter n l fuel (D + 1) := by
  have hlfsr : Lfsr.next (resultAfter n l D).lfsr = Lfsr.next^[D + 1] l := (Function.iterate_succ_apply' _ _ _).symm
  unfold loopAfter
  by_cases hmem : candidate n (Lfsr.next^[D + 1] l) ∈ candidatesOf n l D
  · have hbit : Memory.bit (resultAfter n l D).seq (candidate n (Lfsr.next (resultAfter n l D).lfsr)) = true := by
      rwa [hlfsr, bit_eq_true_iff, mem_resultAfter_seq]
    rw [buildLoop_collide h hbit, hlfsr, card_candidatesOf_succ_of_mem hmem, resultAfter_seq_succ_of_mem hmem]
    rfl
  · have hbit : Memory.bit (resultAfter n l D).seq (candidate n (Lfsr.next (resultAfter n l D).lfsr)) = false := by
      rwa [hlfsr, Bool.eq_false_iff, ne_eq, bit_eq_true_iff, mem_resultAfter_seq]
    rw [buildLoop_set h hbit, hlfsr, card_candidatesOf_succ_of_notMem hmem,
      resultAfter_seq_succ (Nat.zero_lt_of_lt h)]
    rfl

/-- If fewer than `n` slots are set after every number of draws below `D`, the build gets to `D` draws. -/
theorem loopAfter_zero_of_forall_lt {n : Nat} {l : Word} {D : Nat} (h : ∀ D' < D, (candidatesOf n l D').card < n)
    (fuel : Nat) : loopAfter n l (fuel + D) 0 = loopAfter n l fuel D := by
  induction D generalizing fuel with
  | zero => rfl
  | succ D ih =>
    have hreached := ih (fun D' hD' => h D' (Nat.lt_succ_of_lt hD')) (fuel + 1)
    rwa [loopAfter_succ (h D (Nat.lt_succ_self D)), Nat.add_right_comm] at hreached

/-! When a build completes, and with what (R53). -/

/-- `D` is the first number of draws from `l` whose candidates are `n` distinct slots. -/
def FirstFull (n : Nat) (l : Word) (D : Nat) : Prop :=
  (candidatesOf n l D).card = n ∧ ∀ D' < D, (candidatesOf n l D').card < n

/-- Some first number of draws reaches `n` slots, if any number of draws does: a draw adds one slot at most. -/
theorem exists_firstFull {n : Nat} {l : Word} (h : ∃ D, n ≤ (candidatesOf n l D).card) : ∃ D, FirstFull n l D := by
  have hbelow : ∀ D < Nat.find h, (candidatesOf n l D).card < n := fun D hD => Nat.lt_of_not_le (Nat.find_min h hD)
  refine ⟨Nat.find h, Nat.le_antisymm ?_ (Nat.find_spec h), hbelow⟩
  cases hfind : Nat.find h with
  | zero => exact Nat.zero_le n
  | succ D =>
    have hlt := hbelow D (by omega)
    have hstep := Finset.card_insert_le (candidate n (Lfsr.next^[D + 1] l)) (candidatesOf n l D)
    rw [candidatesOf_succ]
    omega

/-- The build's bound on the draws is no cap (R53): `n` slots are reached within it or never. -/
theorem FirstFull.le_buildFuel {n : Nat} {l : Word} {D : Nat} (h : FirstFull n l D) : D ≤ buildFuel := by
  obtain ⟨hfull, hbelow⟩ := h
  by_contra hlt
  have hcard := Finset.card_le_card (candidatesOf_subset_buildFuel n l D)
  have := hbelow buildFuel (Nat.lt_of_not_le hlt)
  omega

theorem FirstFull.build_eq_some {n : Nat} {l : Word} {D : Nat} (h : FirstFull n l D) :
    build n l = some (resultAfter n l D) := by
  have ⟨hfull, hbelow⟩ := h
  rw [build_eq_loopAfter, ← Nat.sub_add_cancel h.le_buildFuel, loopAfter_zero_of_forall_lt hbelow]
  exact buildLoop_done hfull.not_lt

/-- A build does not complete exactly when no number of draws reaches `n` slots. -/
theorem build_eq_none_iff {n : Nat} {l : Word} : build n l = none ↔ ∀ D, (candidatesOf n l D).card < n := by
  constructor
  · intro hnone
    by_contra! hreach
    obtain ⟨D, hfirst⟩ := exists_firstFull hreach
    exact Option.some_ne_none _ (hfirst.build_eq_some.symm.trans hnone)
  · intro hnever
    rw [build_eq_loopAfter, ← Nat.zero_add buildFuel, loopAfter_zero_of_forall_lt fun D _ => hnever D]
    exact buildLoop_out_of_fuel (hnever buildFuel)

/-- A build completes with `b` exactly when `b.draws` is the first number of draws that reaches `n` slots, and `b` is what
those draws leave. -/
theorem build_eq_some_iff {n : Nat} {l : Word} {b : BuildResult} :
    build n l = some b ↔ FirstFull n l b.draws ∧ b = resultAfter n l b.draws := by
  constructor
  · intro hb
    obtain ⟨D, hfirst⟩ : ∃ D, FirstFull n l D := by
      refine exists_firstFull ?_
      by_contra! hnever
      exact Option.some_ne_none b (hb.symm.trans (build_eq_none_iff.2 hnever))
    obtain rfl : b = resultAfter n l D := Option.some.inj (hb.symm.trans hfirst.build_eq_some)
    exact ⟨hfirst, rfl⟩
  · rintro ⟨hfirst, hb⟩
    rw [hb]
    exact hfirst.build_eq_some

theorem eq_resultAfter_iff {n : Nat} {l : Word} {b : BuildResult} :
    b = resultAfter n l b.draws ↔
      b.seq = (candidatesOf n l b.draws).sort (· ≤ ·) ∧ b.lfsr = Lfsr.next^[b.draws] l := by
  obtain ⟨seq, lfsr, draws⟩ := b
  simp [resultAfter]

/-! The command BUILD. -/

/-- BUILD in a legal idle block whose build completes writes `LFSR` and `SEQ` only. -/
theorem exec_build_some {s : State} {r : Regs} {b : BuildResult} (hl : Legal s.cfg) (hc : s.ctl = .idle r)
    (hb : build s.cfg.n r.lfsr = some b) :
    exec .build s = .next { s with ctl := .idle { r with lfsr := b.lfsr, seq := b.seq } } :=
  (exec_build_idle hl hc).trans (runBuild_some hb)

/-- A BUILD that ends in `IDLE` leaves what its completed build leaves. -/
theorem exec_build_next_idle {s t : State} {r q : Regs} (hl : Legal s.cfg) (hc : s.ctl = .idle r)
    (h : exec .build s = .next t) (hq : t.ctl = .idle q) :
    ∃ b, build s.cfg.n r.lfsr = some b ∧ q.seq = b.seq ∧ q.lfsr = b.lfsr := by
  rw [exec_build_idle hl hc] at h
  obtain ⟨b, hb, hnext⟩ | ⟨-, hnext⟩ := runBuild_cases s r s.out <;> rw [hnext] at h <;> cases h <;> cases hq
  exact ⟨b, hb, rfl, rfl⟩

/-- Settles O7: the loop gets to the first number of draws that reaches `N` slots, and a whole period of the generator
reaches as many slots as any number of draws. -/
theorem buildIsUncappedRejectionSampling : Obligations.BuildIsUncappedRejectionSampling := by
  refine ⟨fun n _ l b => ?_, fun n _ l => build_eq_none_iff, fun s r b hl hc hb => exec_build_some hl hc hb⟩
  rw [build_eq_some_iff, eq_resultAfter_iff, FirstFull, and_assoc]

/-- Settles O8: the store is canonical with `N` slots, every draw is one of them or a collision, and BUILD in the second
block runs the same build. -/
theorem completedBuildFillsExactlyNDistinctSlots : Obligations.CompletedBuildFillsExactlyNDistinctSlots := by
  refine ⟨fun n _ l b hb => ?_, fun s₁ s₂ t₁ r₁ r₂ q₁ hl₁ hl₂ hc₁ hc₂ hn hlfsr hexec hq₁ => ?_⟩
  · obtain ⟨⟨hrising, hslots⟩, hcount⟩ := build_seq hb
    obtain ⟨⟨hfull, -⟩, hresult⟩ := build_eq_some_iff.1 hb
    obtain ⟨-, hlfsr⟩ := eq_resultAfter_iff.1 hresult
    have hdraws : n + collisionsOf n l b.draws = b.draws := by
      simpa only [hfull] using card_candidatesOf_add_collisionsOf n l b.draws
    exact ⟨hcount, hrising.imp Nat.ne_of_lt, hslots, hlfsr, hdraws.symm, Nat.le.intro hdraws⟩
  · obtain ⟨b, hb, hseq, hgen⟩ := exec_build_next_idle hl₁ hc₁ hexec hq₁
    rw [hn, hlfsr] at hb
    exact ⟨_, _, exec_build_some hl₂ hc₂ hb, rfl, hseq, hgen⟩

end Sys2Proof.Proofs
end

section
/-! PROOFS. The scheduler (R59, R61): what NOP and TICK do in a legal idle block, and NOPs presented many times. -/

namespace Sys2Proof.Proofs

open Sys2Proof.Machine Sys2Proof.Laws

/-! NOP. -/

/-- NOP in a legal idle block answers the same state. -/
theorem exec_nop_idle {s : State} {r : Regs} (hl : Legal s.cfg) (hc : s.ctl = .idle r) : exec .nop s = .next s :=
  calc exec .nop s = .next (s.toIdle r s.out) := whenIdle_idle hl hc _
    _ = .next s := by rw [toIdle_self s r hc]

/-- `k` presented NOPs consume their inputs and change nothing else. -/
theorem run_replicate_nop {k : Nat} {s : State} {r : Regs} {rest : List StepInput} (hl : Legal s.cfg)
    (hc : s.ctl = .idle r) (hin : s.inputs = List.replicate k 0b0000#4 ++ rest) :
    run k s = .next { s with inputs := rest } := by
  induction k generalizing s with
  | zero =>
    obtain rfl : s.inputs = rest := hin
    rfl
  | succ k ih =>
    have hstep : Machine.step s = .next { s with inputs := List.replicate k 0b0000#4 ++ rest } :=
      (step_cons hin).trans (exec_nop_idle (r := r) hl hc)
    rw [run_succ_next hstep]
    exact ih hl hc rfl

/-- Settles O13: NOP returns to the registers and outputs the block has, and a run of NOPs takes it nowhere
else. -/
theorem nopsLeaveTheStateUnchanged : Obligations.NopsLeaveTheStateUnchanged :=
  ⟨decode_encode .nop, fun _ _ hl hc => ⟨exec_nop_idle hl hc, fun _ _ hin => run_replicate_nop hl hc hin⟩⟩

/-! The rebuild at the window end: when it completes. -/

/-- With `N = 1` the first draw completes the build (R55, R56). -/
theorem build_one (l : Word) : ∃ b, build 1 l = some b := by
  have hfirst : FirstFull 1 l 1 := by
    refine ⟨by simp [candidatesOf], fun D hD => ?_⟩
    obtain rfl : D = 0 := by omega
    exact Nat.one_pos
  exact ⟨_, hfirst.build_eq_some⟩

/-- A build completes from a nonzero word, and from any word with `N = 1`. -/
theorem build_completes_of_ne_zero_or_one {n : Nat} (hn : n ∈ legalLengths) {l : Word} (h : l ≠ 0#16 ∨ n = 1) :
    ∃ b, build n l = some b := by
  obtain hl | rfl := h
  · exact build_completes hn hl
  · exact build_one l

/-- Every draw from zero is zero, so only slot 0 is ever a candidate (R56). -/
theorem candidatesOf_zero_subset (n D : Nat) : candidatesOf n 0#16 D ⊆ {0} := by
  refine Finset.image_subset_iff.2 fun i _ => Finset.mem_singleton.2 ?_
  rw [Function.iterate_fixed next_zero]
  exact Nat.zero_and _

/-- A build from zero with `N ≥ 2` never completes (R56). -/
theorem build_zero_eq_none {n : Nat} (hn : 2 ≤ n) : build n 0#16 = none :=
  build_eq_none_iff.2 fun D =>
    calc (candidatesOf n 0#16 D).card ≤ 1 := Finset.card_le_card (candidatesOf_zero_subset n D)
      _ < n := hn

/-! TICK. -/

/-- The outputs after a TICK's lookup: one event of the terminal `POL` selects if the slot is set (R59 step 2). -/
def lookupOutputs (pol hit : Bool) (o : Outputs) : Outputs :=
  { o with history := o.history ++ if hit then [terminalOf pol] else [] }

/-- A pulse on released coils leaves them released and appends its event (R65). -/
theorem outputs_pulse_of_released {o : Outputs} (h : o.Released) (t : Terminal) :
    o.pulse t = { o with history := o.history ++ [t] } := by
  obtain ⟨coilA, coilB, history⟩ := o
  obtain ⟨rfl, rfl⟩ : coilA = false ∧ coilB = false := h
  cases t <;> rfl

section

variable {s : State} {r : Regs} {hit : Bool} (hl : Legal s.cfg) (hc : s.ctl = .idle r) (hcnt : r.cnt < slots s.cfg.n)
  (ho : s.out.Released) (hbit : Memory.bit r.seq r.cnt = hit)

include hcnt ho hbit

/-- The lookup of a slot that holds `hit` flips `POL` and emits an event exactly if `hit` (R59 steps 1 and 2). -/
theorem tickLookup_of_bit :
    tickLookup s r = some ({ r with pol := r.pol ^^ hit }, lookupOutputs r.pol hit s.out) := by
  obtain ⟨hge, -⟩ | ⟨-, hset, hlookup⟩ | ⟨-, hclear, hlookup⟩ := tickLookup_cases s r
  · omega
  · obtain rfl : hit = true := hbit.symm.trans hset
    rw [hlookup, Machine.pulse, outputs_pulse_of_released ho, Bool.xor_true]
    rfl
  · obtain rfl : hit = false := hbit.symm.trans hclear
    rw [hlookup, lookupOutputs, Bool.xor_false]
    simp

include hl hc

/-- TICK is the increment after the lookup. -/
theorem exec_tick_of_bit :
    exec .tick s = tickAdvance s { r with pol := r.pol ^^ hit } (lookupOutputs r.pol hit s.out) :=
  exec_tick_idle hl hc (tickLookup_of_bit hcnt ho hbit)

/-- TICK below the window end counts (R59 step 3). -/
theorem exec_tick_of_lt_end (hlt : r.cnt + 1 < slots s.cfg.n) :
    exec .tick s =
      .next (s.toIdle { r with cnt := r.cnt + 1, pol := r.pol ^^ hit } (lookupOutputs r.pol hit s.out)) := by
  rw [exec_tick_of_bit hl hc hcnt ho hbit]
  exact if_neg hlt.ne

/-- TICK at the window end wraps the counter and rebuilds (R59 step 4). -/
theorem exec_tick_of_end (hend : r.cnt + 1 = slots s.cfg.n) :
    exec .tick s = runBuild s { r with cnt := 0, pol := r.pol ^^ hit } (lookupOutputs r.pol hit s.out) := by
  rw [exec_tick_of_bit hl hc hcnt ho hbit]
  exact if_pos hend

end

/-- Settles O12: the TICK's lookup answers the pulse of a set slot; then the counter is below the window end, or at it with
a rebuild that completes, or at it with one from zero that never does. -/
theorem tickLooksUpPulsesCountsAndRebuilds : Obligations.TickLooksUpPulsesCountsAndRebuilds := by
  refine ⟨decode_encode .tick, fun s r hit hl hc hcnt ho hbit out' hout => ?_⟩
  obtain rfl : out' = lookupOutputs r.pol hit s.out := hout
  refine ⟨fun hlt => exec_tick_of_lt_end hl hc hcnt ho hbit hlt, fun hend hlfsr => ?_, fun hend hzero hn => ?_⟩
  · obtain ⟨b, hb⟩ := build_completes_of_ne_zero_or_one hl.1 hlfsr
    exact ⟨b, hb, (exec_tick_of_end hl hc hcnt ho hbit hend).trans (runBuild_some hb)⟩
  · have hnone : build s.cfg.n r.lfsr = none := hzero ▸ build_zero_eq_none hn
    refine ⟨hnone, fun t ht hidle => ?_⟩
    cases ((exec_tick_of_end hl hc hcnt ho hbit hend).trans (runBuild_none hnone)).symm.trans ht
    cases hidle

end Sys2Proof.Proofs
end

section
/-! PROOFS. A window of `4N` TICKs (R62): the state after `c` of them in closed form, taken to the next by every TICK and
left as it is by every NOP. -/

namespace Sys2Proof.Proofs

open Sys2Proof.Machine Sys2Proof.Laws

/-! Alternating pulses and the set slots below a counter. -/

/-- `POL` after `m` pulses from `pol`. -/
def polAfter (pol : Bool) (m : Nat) : Bool := pol ^^ decide (m % 2 = 1)

@[simp] theorem polAfter_zero (pol : Bool) : polAfter pol 0 = pol := by simp [polAfter]

theorem polAfter_succ (pol : Bool) (m : Nat) : polAfter pol (m + 1) = !polAfter pol m := by
  obtain h | h := Nat.mod_two_eq_zero_or_one m <;> simp [polAfter, Nat.add_mod, h]

@[simp] theorem alternating_zero (pol : Bool) : alternating pol 0 = [] := rfl

/-- The next alternating event is on the terminal that `POL` then selects. -/
theorem alternating_succ (pol : Bool) (m : Nat) :
    alternating pol (m + 1) = alternating pol m ++ [terminalOf (polAfter pol m)] := by
  rw [alternating, List.range_succ, List.map_append]
  rfl

theorem setBelow_zero (m : Memory) : setBelow m 0 = 0 := by simp [setBelow]

theorem setBelow_cons (p : Nat) (m : Memory) (c : Nat) :
    setBelow (p :: m) c = setBelow m c + if p < c then 1 else 0 := by
  by_cases h : p < c <;> simp [setBelow, h]

/-- Slot `c` adds itself to the set slots below the counter. -/
theorem setBelow_succ {m : Memory} (h : m.Nodup) (c : Nat) :
    setBelow m (c + 1) = setBelow m c + (Memory.bit m c).toNat := by
  induction m with
  | nil => rfl
  | cons p m ih =>
    obtain ⟨hp, hm⟩ := List.nodup_cons.1 h
    rw [setBelow_cons, setBelow_cons, ih hm]
    obtain hlt | rfl | hgt := Nat.lt_trichotomy p c
    · have hbit : Memory.bit (p :: m) c = Memory.bit m c := by simp [Memory.bit, hlt.ne']
      rw [hbit, if_pos hlt, if_pos (Nat.lt_succ_of_lt hlt)]
      omega
    · have hclear : Memory.bit m p = false := by simpa [Memory.bit] using hp
      have hset : Memory.bit (p :: m) p = true := by simp [Memory.bit]
      rw [hclear, hset, if_neg (Nat.lt_irrefl p), if_pos (Nat.lt_succ_self p)]
      rfl
    · have hbit : Memory.bit (p :: m) c = Memory.bit m c := by simp [Memory.bit, hgt.ne]
      rw [hbit, if_neg hgt.not_gt, if_neg (by omega)]
      omega

/-- All `N` set slots lie below `4N` (R23 (a), (b)). -/
theorem setBelow_slots {cfg : Config} {r : Regs} (hr : r.Good cfg) : setBelow r.seq (slots cfg.n) = cfg.n := by
  have hall : r.seq.filter (· < slots cfg.n) = r.seq := List.filter_eq_self.2 (by simpa using hr.seq_wf.2)
  rw [setBelow, hall]
  exact hr.seq_full

/-! The state after `c` TICKs. -/

/-- The outputs after the lookups of the slots below `c`, in a window begun with registers `r` and outputs `o`. -/
def windowOutputs (r : Regs) (o : Outputs) (c : Nat) : Outputs :=
  { o with history := o.history ++ alternating r.pol (setBelow r.seq c) }

/-- The registers after `c` TICKs of a window begun with registers `r`: up to the window end the counter is `c`; there it
is 0, and `LFSR` and `SEQ` are those of the rebuild `b`. -/
def windowRegs (n : Nat) (r : Regs) (b : BuildResult) (c : Nat) : Regs :=
  if c < slots n then { r with cnt := c, pol := polAfter r.pol (setBelow r.seq c) }
  else { lfsr := b.lfsr, cnt := 0, pol := polAfter r.pol (setBelow r.seq c), seq := b.seq }

/-- The state after `c` TICKs of a window begun in state `s` with registers `r`, and `rest` still to be presented. -/
def windowState (s : State) (r : Regs) (b : BuildResult) (c : Nat) (rest : List StepInput) : State :=
  { s with ctl := .idle (windowRegs s.cfg.n r b c), out := windowOutputs r s.out c, inputs := rest }

theorem windowRegs_of_lt {n c : Nat} (h : c < slots n) (r : Regs) (b : BuildResult) :
    windowRegs n r b c = { r with cnt := c, pol := polAfter r.pol (setBelow r.seq c) } := if_pos h

theorem windowRegs_of_eq {n c : Nat} (h : c = slots n) (r : Regs) (b : BuildResult) :
    windowRegs n r b c = { lfsr := b.lfsr, cnt := 0, pol := polAfter r.pol (setBelow r.seq c), seq := b.seq } :=
  if_neg h.not_lt

/-- A step in a window runs the command of the word presented. -/
theorem step_windowState (s : State) (r : Regs) (b : BuildResult) (c : Nat) (w : StepInput) (rest : List StepInput) :
    Machine.step (windowState s r b c (w :: rest)) = exec (decode w) (windowState s r b c rest) :=
  step_cons rfl

/-- A window begins in the state it begins in. -/
theorem windowState_zero {s : State} {r : Regs} (hl : Legal s.cfg) (hc : s.ctl = .idle r) (hcnt : r.cnt = 0)
    (b : BuildResult) : windowState s r b 0 s.inputs = s := by
  have hregs : windowRegs s.cfg.n r b 0 = r := by
    rw [windowRegs_of_lt (slots_pos hl), setBelow_zero, polAfter_zero, ← hcnt]
  have hout : windowOutputs r s.out 0 = s.out := by simp [windowOutputs, setBelow_zero]
  rw [windowState, hregs, hout, ← hc]

section

variable {r : Regs} (hseq : r.seq.Nodup)

include hseq

/-- The lookup of slot `c` leaves the polarity after the set slots below `c + 1`. -/
theorem polAfter_setBelow_succ (c : Nat) :
    polAfter r.pol (setBelow r.seq (c + 1)) = (polAfter r.pol (setBelow r.seq c) ^^ Memory.bit r.seq c) := by
  rw [setBelow_succ hseq]
  cases Memory.bit r.seq c with
  | false => rw [Bool.toNat_false, Nat.add_zero, Bool.xor_false]
  | true => rw [Bool.toNat_true, polAfter_succ, Bool.xor_true]

/-- The lookup of slot `c` leaves the outputs after the set slots below `c + 1`. -/
theorem windowOutputs_succ (o : Outputs) (c : Nat) :
    windowOutputs r o (c + 1) =
      lookupOutputs (polAfter r.pol (setBelow r.seq c)) (Memory.bit r.seq c) (windowOutputs r o c) := by
  rw [windowOutputs, setBelow_succ hseq]
  cases Memory.bit r.seq c with
  | false => simp [lookupOutputs, windowOutputs]
  | true => simp [lookupOutputs, windowOutputs, alternating_succ]

end

section

variable {s : State} {r : Regs} {b : BuildResult} (hs : s.Inv) (hc : s.ctl = .idle r)
  (hb : build s.cfg.n r.lfsr = some b)

include hs

/-- A presented NOP leaves the window where it is. -/
theorem step_windowState_nop (c : Nat) (rest : List StepInput) :
    Machine.step (windowState s r b c (0b0000#4 :: rest)) = .next (windowState s r b c rest) :=
  (step_windowState ..).trans (exec_nop_idle hs.legal rfl)

include hc hb

/-- A presented TICK takes the window one slot further. -/
theorem step_windowState_tick {c : Nat} (hlt : c < slots s.cfg.n) (rest : List StepInput) :
    Machine.step (windowState s r b c (0b0001#4 :: rest)) = .next (windowState s r b (c + 1) rest) := by
  obtain ⟨hr, ho⟩ := inv_idle hs hc
  have hseq : r.seq.Nodup := hr.seq_wf.1.imp Nat.ne_of_lt
  have hl : Legal (windowState s r b c rest).cfg := hs.legal
  have hctl : (windowState s r b c rest).ctl =
      .idle { r with cnt := c, pol := polAfter r.pol (setBelow r.seq c) } :=
    congrArg Control.idle (windowRegs_of_lt hlt r b)
  refine (step_windowState ..).trans ?_
  by_cases hend : c + 1 = slots s.cfg.n
  · refine ((exec_tick_of_end hl hctl hlt ho rfl hend).trans (runBuild_some hb)).trans ?_
    rw [windowState, windowState, windowRegs_of_eq hend, windowOutputs_succ hseq, polAfter_setBelow_succ hseq]
    rfl
  · have hbelow : c + 1 < slots s.cfg.n := Nat.lt_of_le_of_ne hlt hend
    refine (exec_tick_of_lt_end hl hctl hlt ho rfl hbelow).trans ?_
    rw [windowState, windowState, windowRegs_of_lt hbelow, windowOutputs_succ hseq, polAfter_setBelow_succ hseq]
    rfl

/-- A run over TICKs and NOPs takes the window as many slots further as TICKs are presented, up to its end. -/
theorem run_windowState {c : Nat} {ws : List StepInput} (rest : List StepInput)
    (hws : ∀ w ∈ ws, w = 0b0000#4 ∨ w = 0b0001#4) (hle : c + ws.count 0b0001#4 ≤ slots s.cfg.n) :
    run ws.length (windowState s r b c (ws ++ rest)) = .next (windowState s r b (c + ws.count 0b0001#4) rest) := by
  induction ws generalizing c with
  | nil => rfl
  | cons w ws ih =>
    obtain ⟨hw, hrest⟩ := List.forall_mem_cons.1 hws
    rw [List.length_cons, List.cons_append]
    obtain rfl | rfl := hw
    · have hcount : (0b0000#4 :: ws).count 0b0001#4 = ws.count 0b0001#4 := List.count_cons_of_ne (by decide)
      rw [hcount] at hle ⊢
      rw [run_succ_next (step_windowState_nop hs c _), ih hrest hle]
    · have hcount : c + (0b0001#4 :: ws).count 0b0001#4 = c + 1 + ws.count 0b0001#4 := by
        rw [List.count_cons_self]
        omega
      rw [hcount] at hle ⊢
      rw [run_succ_next (step_windowState_tick hs hc hb (by omega) _), ih hrest hle]

end

/-- Settles O14: a window is a run of `windowState`, whose `4N` slots hold `N` set ones. -/
theorem windowOf4NTicksEmitsExactlyNPulses : Obligations.WindowOf4NTicksEmitsExactlyNPulses := by
  intro s r hs hc hcnt ws rest hin hws
  obtain ⟨hr, -⟩ := inv_idle hs hc
  obtain ⟨b, hb⟩ := build_completes hs.legal.1 hr.lfsr_ne
  have hrun (hle : ws.count 0b0001#4 ≤ slots s.cfg.n) :
      run ws.length s = .next (windowState s r b (ws.count 0b0001#4) rest) := by
    have hwindow := run_windowState hs hc hb rest hws (c := 0) (by omega)
    rwa [← hin, windowState_zero hs.legal hc hcnt, Nat.zero_add] at hwindow
  refine ⟨fun hlt => ?_, fun hend => ⟨b, hb, ?_⟩⟩
  · rw [hrun hlt.le, windowState, windowRegs_of_lt hlt]
    rfl
  · have hslots : ws.count 0b0001#4 = slots s.cfg.n := hend
    rw [hrun hslots.le, windowState, windowRegs_of_eq hslots, windowOutputs, hslots, setBelow_slots hr]
    rfl

end Sys2Proof.Proofs
end

section
/-! PROOFS. The actuator (R65 to R67, R69): the drive signals of one pulse, the history a step appends to, and the
alternation of the terminals over a run. -/

namespace Sys2Proof.Proofs

open Sys2Proof.Machine Sys2Proof.Laws

/-! One pulse. -/

/-- While a pulse is in progress exactly its own terminal is driven (R65). -/
theorem energized_coils {o : Outputs} (h : o.Released) (t : Terminal) :
    (o.energized t).coilA = decide (t = .A) ∧ (o.energized t).coilB = decide (t = .B) := by
  obtain ⟨ha, hb⟩ := h
  cases t with
  | A => exact ⟨rfl, hb⟩
  | B => exact ⟨ha, rfl⟩

/-- Settles O15: one terminal is driven, and the pulse as a whole is the flip of `POL` and the event. -/
theorem pulseDrivesTheSelectedTerminalAndFlipsPol : Obligations.PulseDrivesTheSelectedTerminalAndFlipsPol := by
  rintro r o ho t rfl
  obtain ⟨ha, hb⟩ := energized_coils ho (terminalOf r.pol)
  exact ⟨ha, hb, congrArg (Prod.mk _) (outputs_pulse_of_released ho _)⟩

/-- Settles O17: a pulse drives the one terminal it is on, and between operations the invariant releases both. -/
theorem coilOutputsAreMutuallyExclusive : Obligations.CoilOutputsAreMutuallyExclusive := by
  refine ⟨fun o t ho => ⟨?_, outputs_pulse_released ho t⟩, fun s t hs hstep => ?_⟩
  · obtain ⟨ha, hb⟩ := energized_coils ho t
    rw [ha, hb]
    cases t <;> simp
  · obtain ⟨ht, -⟩ := step_inv hs hstep
    exact ⟨ht.exclusive, fun hidle => ht.released (by simp [hidle])⟩

/-! What a command leaves of the outputs and of the inputs to come. -/

theorem runBuild_out_inputs {s t : State} {r : Regs} {o : Outputs} (h : runBuild s r o = .next t) :
    t.out = o ∧ t.inputs = s.inputs := by
  obtain ⟨b, -, hb⟩ | ⟨-, hb⟩ := runBuild_cases s r o <;> rw [hb] at h <;> cases h <;> exact ⟨rfl, rfl⟩

theorem tickAdvance_out_inputs {s t : State} {r : Regs} {o : Outputs} (h : tickAdvance s r o = .next t) :
    t.out = o ∧ t.inputs = s.inputs := by
  obtain ⟨-, ha⟩ | ⟨-, ha⟩ := tickAdvance_cases s r o <;> rw [ha] at h
  · exact runBuild_out_inputs h
  · cases h; exact ⟨rfl, rfl⟩

/-- No command reads or writes the inputs that follow its own (R33). -/
theorem exec_inputs {i : Instr} {s t : State} (h : exec i s = .next t) : t.inputs = s.inputs := by
  obtain ⟨-, hran⟩ := exec_next h
  cases hran with
  | nop | step | pulse => rfl
  | reset hbuild | build _ hbuild => exact (runBuild_out_inputs hbuild).2
  | tick _ _ hadvance => exact (tickAdvance_out_inputs hadvance).2

/-- RESET keeps the history (R69). -/
theorem exec_reset_history {s t : State} (h : exec .reset s = .next t) : t.out.history = s.out.history := by
  obtain ⟨-, ⟨hbuild⟩⟩ := exec_next h
  rw [(runBuild_out_inputs hbuild).1, release_history]

/-- A command other than RESET runs one pulse or none, and writes neither the outputs nor `POL` apart from that. -/
theorem exec_pulses_once_or_never {i : Instr} {s t : State} {r : Regs} (hi : i ≠ .reset) (h : exec i s = .next t)
    (hc : s.ctl = .idle r) :
    ∃ after, (after = pulse r s.out ∨ after = (r, s.out)) ∧ t.out = after.2 ∧
      ∀ q, t.ctl = .idle q → q.pol = after.1.pol := by
  obtain ⟨-, hran⟩ := exec_next h
  cases hran with
  | reset => exact absurd rfl hi
  | nop hc' | step hc' =>
    cases hc.symm.trans hc'
    exact ⟨(r, s.out), .inr rfl, rfl, by rintro q ⟨⟩; rfl⟩
  | tick hc' hlookup hadvance =>
    cases hc.symm.trans hc'
    exact ⟨_, tickLookup_some hlookup, (tickAdvance_out_inputs hadvance).1,
      fun _ hq => (tickAdvance_idle hadvance hq).2.1⟩
  | build hc' hbuild =>
    cases hc.symm.trans hc'
    exact ⟨(r, s.out), .inr rfl, (runBuild_out_inputs hbuild).1, fun _ hq => (runBuild_idle hbuild hq).2.1⟩
  | pulse hc' =>
    cases hc.symm.trans hc'
    exact ⟨pulse r s.out, .inl rfl, rfl, by rintro q ⟨⟩; rfl⟩

/-! The history. -/

/-- A command appends at most one event (R69). -/
theorem exec_history {i : Instr} {s t : State} (h : exec i s = .next t) :
    ∃ ev, t.out.history = s.out.history ++ ev ∧ ev.length ≤ 1 := by
  by_cases hi : i = .reset
  · subst hi
    exact ⟨[], by rw [exec_reset_history h, List.append_nil], Nat.zero_le 1⟩
  · obtain ⟨r, hc⟩ := (exec_next_idle h).2.resolve_left hi
    obtain ⟨_, rfl | rfl, hout, -⟩ := exec_pulses_once_or_never hi h hc <;> rw [hout]
    · exact ⟨[terminalOf r.pol], outputs_pulse_history _ _, le_rfl⟩
    · exact ⟨[], (List.append_nil _).symm, Nat.zero_le 1⟩

theorem step_history {s t : State} (h : Machine.step s = .next t) :
    ∃ ev, t.out.history = s.out.history ++ ev ∧ ev.length ≤ 1 := by
  obtain ⟨-, -, rfl⟩ | ⟨w, rest, -, hexec⟩ := step_next_cases h
  · exact ⟨[], (List.append_nil _).symm, Nat.zero_le 1⟩
  · exact exec_history (s := { s with inputs := rest }) hexec

theorem run_history {k : Nat} {s t : State} (h : run k s = .next t) : s.out.history <+: t.out.history := by
  induction k generalizing s with
  | zero => cases h; exact List.prefix_rfl
  | succ k ih =>
    obtain ⟨u, hstep, hrun⟩ := run_succ_inv h
    obtain ⟨ev, hev, -⟩ := step_history hstep
    exact (hev ▸ List.prefix_append _ ev).trans (ih hrun)

/-- Settles O19: a step appends no event or the one of its pulse, and RESET pulses nothing. -/
theorem outputHistoryIsAppendOnly : Obligations.OutputHistoryIsAppendOnly :=
  ⟨fun _ _ => step_history, fun _ _ _ => run_history, fun _ _ => exec_reset_history⟩

/-! Alternation. -/

/-- The events of `s` after the history `old` alternate from the terminal of `pol`, and where the block is idle `POL`
selects the terminal that goes on with them (R67). -/
def AlternatesSince (pol : Bool) (old : List Terminal) (s : State) : Prop :=
  ∃ m, s.out.history = old ++ alternating pol m ∧ ∀ q, s.ctl = .idle q → q.pol = polAfter pol m

/-- Where no event has been emitted yet, the events alternate from the terminal that `POL` selects. -/
theorem alternatesSince_of_history_eq {pol : Bool} {old : List Terminal} {s : State} (hold : s.out.history = old)
    (hpol : ∀ q, s.ctl = .idle q → q.pol = pol) : AlternatesSince pol old s :=
  ⟨0, by rw [hold, alternating_zero, List.append_nil], fun q hq => by rw [hpol q hq, polAfter_zero]⟩

/-- A command other than RESET keeps the alternation: its pulse, if any, is on the terminal of `POL`, which it flips. -/
theorem exec_alternatesSince {pol : Bool} {old : List Terminal} {i : Instr} {s t : State}
    (hs : AlternatesSince pol old s) (hi : i ≠ .reset) (h : exec i s = .next t) : AlternatesSince pol old t := by
  obtain ⟨m, hhistory, hpol⟩ := hs
  obtain ⟨r, hc⟩ := (exec_next_idle h).2.resolve_left hi
  have hr : r.pol = polAfter pol m := hpol r hc
  obtain ⟨_, rfl | rfl, hout, hq⟩ := exec_pulses_once_or_never hi h hc
  · refine ⟨m + 1, ?_, fun q hidle => ?_⟩
    · rw [hout, pulse_snd, outputs_pulse_history, hhistory, hr, alternating_succ, List.append_assoc]
    · rw [hq q hidle, pulse_fst_pol, hr, polAfter_succ]
  · exact ⟨m, by rw [hout, hhistory], fun q hidle => (hq q hidle).trans hr⟩

/-- Only a word with `IN[3] = 1` is RESET (R37). -/
theorem decode_ne_reset : ∀ {w : StepInput}, w.getLsbD 3 = false → decode w ≠ .reset := by decide

/-- A run over inputs without RESET keeps the alternation. -/
theorem run_alternatesSince {pol : Bool} {old : List Terminal} {k : Nat} {s t : State} (hs : AlternatesSince pol old s)
    (hin : ∀ w ∈ s.inputs, w.getLsbD 3 = false) (h : run k s = .next t) : AlternatesSince pol old t := by
  induction k generalizing s with
  | zero => cases h; exact hs
  | succ k ih =>
    obtain ⟨u, hstep, hrun⟩ := run_succ_inv h
    obtain ⟨-, -, rfl⟩ | ⟨w, rest, hcons, hexec⟩ := step_next_cases hstep
    · exact ih hs hin hrun
    · rw [hcons] at hin
      obtain ⟨hw, hrest⟩ := List.forall_mem_cons.1 hin
      have hu : AlternatesSince pol old u :=
        exec_alternatesSince (s := { s with inputs := rest }) hs (decode_ne_reset hw) hexec
      have hinputs : u.inputs = rest := exec_inputs hexec
      exact ih hu (hinputs ▸ hrest) hrun

/-- Alternation from `POL = 0` is terminal A at the even events and B at the odd ones. -/
theorem alternating_false (m : Nat) :
    alternating false m = (List.range m).map fun k => if k % 2 = 0 then Terminal.A else Terminal.B := by
  refine List.map_congr_left fun k _ => ?_
  obtain hk | hk := Nat.mod_two_eq_zero_or_one k <;> simp [hk]

/-- Settles O18: alternation holds before the first event, from an idle state and from a restart, and a run without RESET
keeps it. -/
theorem pulsePolarityAlternatesStrictly : Obligations.PulsePolarityAlternatesStrictly := by
  refine ⟨fun k s t r hc hin hrun => ?_, fun k s s₀ t hpol0 hreset hin hrun => ?_⟩
  · have hs : AlternatesSince r.pol s.out.history s :=
      alternatesSince_of_history_eq rfl fun q hq => by cases hc.symm.trans hq; rfl
    exact run_alternatesSince hs hin hrun
  · have hs₀ : AlternatesSince false s.out.history s₀ :=
      alternatesSince_of_history_eq (exec_reset_history hreset) fun q hq => (exec_reset_idle hreset hq).2.trans hpol0
    obtain ⟨m, hhistory, -⟩ := run_alternatesSince hs₀ hin hrun
    exact ⟨m, by rw [hhistory, alternating_false]⟩

end Sys2Proof.Proofs
end

section
/-! PROOFS. The restart (R85, R86): what RESET leaves in every phase, and that its build does not return to the
seed. -/

namespace Sys2Proof.Proofs

open Sys2Proof.Machine Sys2Proof.Laws

/-! A build from a nonzero word draws at least once and for less than a whole period of the generator. -/

/-- A whole period draws every nonzero word (R46). -/
theorem candidate_mem_candidatesOf_buildFuel (n : Nat) {l w : Word} (hl : l ≠ 0#16) (hw : w ≠ 0#16) :
    candidate n w ∈ candidatesOf n l buildFuel := by
  obtain ⟨i, hi, rfl⟩ := exists_iterate_next (next_ne_zero hl) hw
  exact Finset.mem_image.2 ⟨i, Finset.mem_range.2 hi, rfl⟩

/-- A whole period has every slot but 0 as a candidate; slot 0 of the largest block is the candidate of the word 0
only. -/
theorem Ioo_subset_candidatesOf_buildFuel {n : Nat} (hn : n ∈ legalLengths) {l : Word} (hl : l ≠ 0#16) :
    Finset.Ioo 0 (4 * n) ⊆ candidatesOf n l buildFuel := fun p hp => by
  obtain ⟨hpos, hlt⟩ := Finset.mem_Ioo.1 hp
  have hword : (BitVec.ofNat 16 p).toNat = p := by
    obtain ⟨k, hk, rfl⟩ := legalLengths_pow hn
    have := Nat.pow_le_pow_right (n := 2) (by decide) hk
    rw [BitVec.toNat_ofNat, Nat.mod_eq_of_lt (by omega)]
  have hcand : candidate n (BitVec.ofNat 16 p) = p := by rw [candidate_eq_mod hn, hword, Nat.mod_eq_of_lt hlt]
  have hne : BitVec.ofNat 16 p ≠ 0#16 := toNat_pos_iff.1 (by rwa [hword])
  exact hcand ▸ candidate_mem_candidatesOf_buildFuel n hl hne

/-- `n` slots are reached before the generator has run through its period, for the period reaches `4n - 1`. -/
theorem FirstFull.lt_buildFuel {n : Nat} {l : Word} {D : Nat} (h : FirstFull n l D) (hn : n ∈ legalLengths)
    (hl : l ≠ 0#16) : D < buildFuel := by
  refine Nat.lt_of_le_of_ne h.le_buildFuel ?_
  rintro rfl
  have hslots : 4 * n - 1 ≤ (candidatesOf n l buildFuel).card := by
    simpa using Finset.card_le_card (Ioo_subset_candidatesOf_buildFuel hn hl)
  have hfull : (candidatesOf n l buildFuel).card = n := h.1
  have hpos : 0 < n := legal_pos (cfg := { n, seed0 := l, pol0 := false }) ⟨hn, hl⟩
  omega

/-- The first draw is needed: no draw is no slot. -/
theorem FirstFull.pos {n : Nat} {l : Word} {D : Nat} (h : FirstFull n l D) (hn : 0 < n) : 0 < D := by
  refine Nat.pos_of_ne_zero ?_
  rintro rfl
  exact hn.ne h.1

/-- The build of a legal restart leaves the generator `draws` steps past the seed, and not back at it, since the
draws are at least one and fewer than the period (R46, R54, R85). -/
theorem build_seed0_lfsr {cfg : Config} (hl : Legal cfg) {b : BuildResult} (hb : build cfg.n cfg.seed0 = some b) :
    b.lfsr = Lfsr.next^[b.draws] cfg.seed0 ∧ b.lfsr ≠ cfg.seed0 := by
  obtain ⟨hn, hseed⟩ := hl
  obtain ⟨hfirst, hresult⟩ := build_eq_some_iff.1 hb
  obtain ⟨-, hlfsr⟩ := eq_resultAfter_iff.1 hresult
  have hpos : b.draws ≠ 0 := (hfirst.pos (legal_pos ⟨hn, hseed⟩)).ne'
  have hperiod : b.draws < Function.minimalPeriod Lfsr.next cfg.seed0 := by
    rw [minimalPeriod_next hseed]
    exact hfirst.lt_buildFuel hn hseed
  refine ⟨hlfsr, fun hreturn => ?_⟩
  exact Function.not_isPeriodicPt_of_pos_of_lt_minimalPeriod hpos hperiod (hlfsr.symm.trans hreturn)

/-! RESET. -/

/-- V-B2: from the seed `0x0001` with `N = 4`. -/
theorem build_four_one : build 4 0x0001#16 = some { seq := [0, 2, 4, 8], lfsr := 0xD002#16, draws := 15 } := by
  decide

/-- Settles O20: the restart's build completes, RESET answers what it leaves whatever the phase was, and the answer has
the same configuration, history and inputs, so a second RESET answers it again. -/
theorem resetReseedsRebuildsAndKeepsHistory : Obligations.ResetReseedsRebuildsAndKeepsHistory := by
  refine ⟨fun w hw => decode_of_rstBit hw, fun s hl => ?_, fun s hn hseed hpol => ?_⟩
  · obtain ⟨b, hb⟩ := build_completes hl.1 hl.2
    obtain ⟨hlfsr, hne⟩ := build_seed0_lfsr hl hb
    refine ⟨b, hb, hne, hlfsr, ?_⟩
    rintro t rfl
    exact ⟨exec_reset_build hl hb, exec_reset_build (s := { s with ctl := _, out := _ }) hl hb⟩
  · have hl : Legal s.cfg := by
      rw [Legal, hn, hseed]
      decide
    have hb : build s.cfg.n s.cfg.seed0 = some ⟨[0, 2, 4, 8], 0xD002#16, 15⟩ := by
      rw [hn, hseed]
      exact build_four_one
    rw [exec_reset_build hl hb, Regs.afterRestart, hpol]
    rfl

/-- Settles O21: RESET reads nothing in which the two blocks differ, and its build completes. -/
theorem resetDuringAnOperationEqualsResetFromIdle : Obligations.ResetDuringAnOperationEqualsResetFromIdle := by
  intro s r hl _
  obtain ⟨b, hb⟩ := build_completes hl.1 hl.2
  have hreset := exec_reset_build hl hb
  exact ⟨hreset.trans (exec_reset_build (s := { s with ctl := .idle r, out := _ }) hl hb).symm, _, hreset, rfl,
    ⟨rfl, rfl⟩, rfl⟩

end Sys2Proof.Proofs
end

section
/-! PROOFS. The invariant and the phase: every step keeps the one (R23), and from a good state outside `BUSY` a step that
completes is outside `BUSY` again, for every build in it starts from a nonzero word (R55, R64). -/

namespace Sys2Proof.Proofs

open Sys2Proof.Machine Sys2Proof.Laws

/-- Settles O37: every command keeps the invariant, and a step without input changes nothing. -/
theorem everyStepKeepsTheInvariant : Obligations.EveryStepKeepsTheInvariant :=
  fun _ _ hs h => (step_inv hs h).1

/-! One step. -/

/-- A step with nothing presented retains the state of a legal block (R84, R88). -/
theorem step_nil {s : State} (h : s.inputs = []) (hl : Legal s.cfg) : Machine.step s = .next s := by
  unfold Machine.step
  rw [fetch_nil h]
  exact if_pos hl

/-- Nothing presented to an illegal block is refused too (log entry 12). -/
theorem step_nil_illegal {s : State} (h : s.inputs = []) (hl : ¬Legal s.cfg) :
    Machine.step s = .refused .illegalConfig := by
  unfold Machine.step
  rw [fetch_nil h]
  exact if_neg hl

/-- Settles O28: the two cases of what is presented. -/
theorem stepRunsTheDecodedCommand : Obligations.StepRunsTheDecodedCommand :=
  ⟨fun _ _ _ => step_cons, fun _ => step_nil⟩

/-- Every assigned command refuses an illegal configuration (R52, R93). -/
theorem exec_illegal {i : Instr} {s : State} (hw : i.wellFormed = true) (hl : ¬Legal s.cfg) :
    exec i s = .refused .illegalConfig := by
  cases i with
  | reset => exact if_neg hl
  | nop | tick | step | build | pulse => exact whenIdle_illegal hl _
  | reserved0101 | reserved0110 | reserved0111 => cases hw

/-! The phase a command ends in. -/

theorem runBuild_phase_idle {s t : State} {r : Regs} {o : Outputs} (hl : Legal s.cfg) (hr : r.lfsr ≠ 0#16)
    (h : runBuild s r o = .next t) : t.phase = .idle := by
  obtain ⟨b, hb⟩ := build_completes hl.1 hr
  cases (runBuild_some hb).symm.trans h
  rfl

theorem tickAdvance_phase_idle {s t : State} {r : Regs} {o : Outputs} (hl : Legal s.cfg) (hr : r.lfsr ≠ 0#16)
    (h : tickAdvance s r o = .next t) : t.phase = .idle := by
  obtain ⟨-, ha⟩ | ⟨-, ha⟩ := tickAdvance_cases s r o <;> rw [ha] at h
  · exact runBuild_phase_idle (r := { r with cnt := 0 }) hl hr h
  · cases h
    rfl

/-- A command that answers a next state ends in `IDLE`, unless it found the generator at zero (R56, R77). -/
theorem exec_phase_idle {i : Instr} {s t : State} (hs : ∀ r, s.ctl = .idle r → r.lfsr ≠ 0#16)
    (h : exec i s = .next t) : t.phase = .idle := by
  obtain ⟨hl, hran⟩ := exec_next h
  cases hran with
  | reset hbuild => exact runBuild_phase_idle hl hl.2 hbuild
  | nop | step | pulse => rfl
  | tick hc hlookup hadvance => exact tickAdvance_phase_idle hl (tickLookup_lfsr hlookup ▸ hs _ hc) hadvance
  | build hc hbuild => exact runBuild_phase_idle hl (hs _ hc) hbuild

/-- A step from a good state goes to `IDLE`, or presents nothing and stays where it is. -/
theorem step_phase_idle {s t : State} (hs : s.Inv) (h : Machine.step s = .next t) : t.phase = .idle ∨ t = s := by
  obtain ⟨-, -, rfl⟩ | ⟨w, rest, -, hexec⟩ := step_next_cases h
  · exact .inr rfl
  · exact .inl (exec_phase_idle (s := { s with inputs := rest }) (fun r hc => (hs.regs r hc).lfsr_ne) hexec)

/-! Which assigned commands complete in an idle block. -/

/-- RESET of a legal block completes in `IDLE`, for its seed is nonzero (R85). -/
theorem exec_reset_completes {s : State} (hl : Legal s.cfg) : ∃ t, exec .reset s = .next t ∧ t.phase = .idle := by
  obtain ⟨b, hb⟩ := build_completes hl.1 hl.2
  exact ⟨_, exec_reset_build hl hb, rfl⟩

theorem runBuild_completes (s : State) (r : Regs) (o : Outputs) : ∃ t, runBuild s r o = .next t := by
  obtain ⟨b, -, h⟩ | ⟨-, h⟩ := runBuild_cases s r o <;> exact ⟨_, h⟩

theorem tickAdvance_completes (s : State) (r : Regs) (o : Outputs) : ∃ t, tickAdvance s r o = .next t := by
  obtain ⟨-, h⟩ | ⟨-, h⟩ := tickAdvance_cases s r o <;> rw [h]
  · exact runBuild_completes s _ o
  · exact ⟨_, rfl⟩

/-- A TICK's lookup is a `MemRead` of the slot `CNT` holds, and the pulse if that slot is set (R59 steps 1 and 2). -/
theorem tickLookup_eq_map_read (s : State) (r : Regs) :
    tickLookup s r =
      (Memory.read (slots s.cfg.n) r.seq r.cnt).map fun hit => if hit then pulse r s.out else (r, s.out) := by
  unfold tickLookup
  obtain hread | ⟨hit, hread⟩ := (Memory.read (slots s.cfg.n) r.seq r.cnt).eq_none_or_eq_some <;> rw [hread]
  · rfl
  · cases hit <;> rfl

section

variable {s : State} {r : Regs} (hl : Legal s.cfg) (hc : s.ctl = .idle r)

include hl hc

/-- TICK at a counter that is no slot stops with that slot's fault (log entry 10). -/
theorem exec_tick_out_of_range (hcnt : slots s.cfg.n ≤ r.cnt) : exec .tick s = .fault (.slotOutOfRange r.cnt) := by
  have hlookup : tickLookup s r = none := by
    rw [tickLookup_eq_map_read, (read_none_iff ..).2 hcnt, Option.map_none]
  refine (whenIdle_idle hl hc _).trans ?_
  simp only [hlookup]

/-- An assigned command in a legal idle block answers a next state, or is a TICK whose counter is no slot. -/
theorem exec_idle_cases {i : Instr} (hw : i.wellFormed = true) :
    (∃ t, exec i s = .next t) ∨
      (i = .tick ∧ slots s.cfg.n ≤ r.cnt ∧ exec i s = .fault (.slotOutOfRange r.cnt)) := by
  cases i with
  | reset => exact .inl ((exec_reset_completes hl).imp fun _ => And.left)
  | nop | step | pulse => exact .inl ⟨_, whenIdle_idle hl hc _⟩
  | tick =>
    by_cases hcnt : slots s.cfg.n ≤ r.cnt
    · exact .inr ⟨rfl, hcnt, exec_tick_out_of_range hl hc hcnt⟩
    · obtain ⟨hge, -⟩ | ⟨-, -, hlookup⟩ | ⟨-, -, hlookup⟩ := tickLookup_cases s r
      · exact absurd hge hcnt
      · exact .inl (exec_tick_idle hl hc hlookup ▸ tickAdvance_completes s _ _)
      · exact .inl (exec_tick_idle hl hc hlookup ▸ tickAdvance_completes s _ _)
  | build => exact .inl (exec_build_idle hl hc ▸ runBuild_completes s r s.out)
  | reserved0101 | reserved0110 | reserved0111 => cases hw

end

/-- An assigned command completes in a good idle state. -/
theorem exec_completes_of_inv {i : Instr} {s : State} {r : Regs} (hs : s.Inv) (hc : s.ctl = .idle r)
    (hw : i.wellFormed = true) : ∃ t, exec i s = .next t :=
  (exec_idle_cases hs.legal hc hw).resolve_right fun ⟨_, hcnt, _⟩ => (hs.regs r hc).cnt_lt.not_ge hcnt

/-! Runs over unreserved inputs (R64). -/

/-- A good idle block with no reserved word among the inputs to come. -/
def ReadyIdle (s : State) : Prop := s.Inv ∧ s.phase = .idle ∧ ∀ w ∈ s.inputs, (decode w).wellFormed = true

/-- A step takes such a block to such a block. -/
theorem step_readyIdle {s : State} (hs : ReadyIdle s) : ∃ t, Machine.step s = .next t ∧ ReadyIdle t := by
  obtain ⟨hinv, hidle, hin⟩ := hs
  obtain ⟨r, hc⟩ := (phase_eq_idle_iff s).1 hidle
  cases hnow : s.inputs with
  | nil => exact ⟨s, step_nil hnow hinv.legal, hinv, hidle, hin⟩
  | cons w rest =>
    rw [hnow] at hin
    obtain ⟨hw, hrest⟩ := List.forall_mem_cons.1 hin
    have hinv' := inv_withInputs hinv rest
    obtain ⟨t, ht⟩ := exec_completes_of_inv (r := r) hinv' hc hw
    have hphase : t.phase = .idle := exec_phase_idle (fun q hq => (hinv'.regs q hq).lfsr_ne) ht
    have hinputs : t.inputs = rest := exec_inputs ht
    exact ⟨t, (step_cons hnow).trans ht, exec_inv hinv' ht, hphase, hinputs ▸ hrest⟩

/-- So does a run. -/
theorem run_readyIdle {k : Nat} {s : State} (hs : ReadyIdle s) : ∃ t, run k s = .next t ∧ ReadyIdle t := by
  induction k generalizing s with
  | zero => exact ⟨s, rfl, hs⟩
  | succ k ih =>
    obtain ⟨u, hstep, hu⟩ := step_readyIdle hs
    rw [run_succ_next hstep]
    exact ih hu

/-- Settles O40: being a good idle block with unreserved inputs is kept by every step, and such a block completes its
step. -/
theorem idleBlockRunsOnWhateverIsPresented : Obligations.IdleBlockRunsOnWhateverIsPresented := by
  intro k s hs hidle hin
  obtain ⟨t, hrun, hinv, hphase, -⟩ := run_readyIdle (k := k) ⟨hs, hidle, hin⟩
  refine ⟨⟨t, hrun⟩, fun t' hrun' => ?_⟩
  cases hrun.symm.trans hrun'
  exact ⟨hphase, hinv⟩

end Sys2Proof.Proofs
end

section
/-! PROOFS. The past is forgotten (R11, R85): events emitted earlier stand in front of the history and take part in no
step, so two blocks that RESET makes equal but for their histories run alike. -/

namespace Sys2Proof.Proofs

open Sys2Proof.Machine Sys2Proof.Laws

/-! The block with earlier events in front of its history. -/

/-- The outputs with the events `old` in front of their history. -/
def outputsAfter (old : List Terminal) (o : Outputs) : Outputs := { o with history := old ++ o.history }

/-- The block with the events `old` in front of its history, and otherwise the same. -/
def stateAfter (old : List Terminal) (s : State) : State := { s with out := outputsAfter old s.out }

/-- An outcome with its next state, if it has one, changed by `f`. -/
def mapNext (f : State → State) : Host.Outcome State Fault Refusal → Host.Outcome State Fault Refusal
  | .next t => .next (f t)
  | .fault e => .fault e
  | .refused why => .refused why

theorem mapNext_eq_next {f : State → State} {x : Host.Outcome State Fault Refusal} {t : State}
    (h : mapNext f x = .next t) : ∃ u, x = .next u ∧ t = f u := by
  cases x with
  | next u => cases h; exact ⟨u, rfl, rfl⟩
  | fault _ | refused _ => cases h

/-! Each operation does the same with earlier events in front as without. -/

section

variable (old : List Terminal) (s : State) (r : Regs) (o : Outputs)

theorem outputsAfter_pulse (t : Terminal) : (outputsAfter old o).pulse t = outputsAfter old (o.pulse t) := by
  cases t <;> simp [outputsAfter, Outputs.pulse, Outputs.energized, Outputs.drive, Outputs.emit]

theorem pulse_outputsAfter : pulse r (outputsAfter old o) = Prod.map id (outputsAfter old) (pulse r o) :=
  congrArg (Prod.mk _) (outputsAfter_pulse old o _)

theorem runBuild_stateAfter :
    runBuild (stateAfter old s) r (outputsAfter old o) = mapNext (stateAfter old) (runBuild s r o) := by
  obtain ⟨b, hb, h⟩ | ⟨hb, h⟩ := runBuild_cases s r o <;> rw [h]
  · exact runBuild_some hb
  · exact runBuild_none hb

theorem tickAdvance_stateAfter :
    tickAdvance (stateAfter old s) r (outputsAfter old o) = mapNext (stateAfter old) (tickAdvance s r o) := by
  obtain ⟨heq, h⟩ | ⟨hne, h⟩ := tickAdvance_cases s r o <;> rw [h]
  · exact (if_pos heq).trans (runBuild_stateAfter old s _ o)
  · exact if_neg hne

theorem tickLookup_stateAfter :
    tickLookup (stateAfter old s) r = (tickLookup s r).map (Prod.map id (outputsAfter old)) := by
  rw [tickLookup_eq_map_read, tickLookup_eq_map_read, Option.map_map]
  refine congrArg (fun f => Option.map f _) (funext fun hit => ?_)
  cases hit with
  | true => exact pulse_outputsAfter old r s.out
  | false => rfl

/-- A gated command whose effect does the same does the same. -/
theorem whenIdle_stateAfter {effect effect' : Regs → Host.Outcome State Fault Refusal}
    (h : ∀ r, effect' r = mapNext (stateAfter old) (effect r)) :
    whenIdle (stateAfter old s) effect' = mapNext (stateAfter old) (whenIdle s effect) := by
  by_cases hl : Legal s.cfg
  · cases hc : s.ctl with
    | uninit => rw [whenIdle_uninit hl hc, whenIdle_uninit (s := stateAfter old s) hl hc, mapNext]
    | busy => rw [whenIdle_busy hl hc, whenIdle_busy (s := stateAfter old s) hl hc, mapNext]
    | idle r => rw [whenIdle_idle hl hc, whenIdle_idle (s := stateAfter old s) hl hc, h]
  · rw [whenIdle_illegal hl, whenIdle_illegal (s := stateAfter old s) hl, mapNext]

theorem exec_stateAfter (i : Instr) : exec i (stateAfter old s) = mapNext (stateAfter old) (exec i s) := by
  cases i with
  | reset =>
    by_cases hl : Legal s.cfg
    · rw [exec_reset_legal hl, exec_reset_legal (s := stateAfter old s) hl]
      exact runBuild_stateAfter old s _ s.out.release
    · rw [exec_illegal rfl hl, exec_illegal (s := stateAfter old s) rfl hl, mapNext]
  | nop | step => exact whenIdle_stateAfter old s fun _ => rfl
  | tick =>
    refine whenIdle_stateAfter old s fun r => ?_
    rw [tickLookup_stateAfter]
    cases tickLookup s r with
    | none => rfl
    | some after => exact tickAdvance_stateAfter old s after.1 after.2
  | build => exact whenIdle_stateAfter old s fun r => runBuild_stateAfter old s r s.out
  | pulse =>
    exact whenIdle_stateAfter old s fun r =>
      congrArg (fun after : Regs × Outputs => Host.Outcome.next (s.toIdle after.1 after.2)) (pulse_outputsAfter old r s.out)
  | reserved0101 | reserved0110 | reserved0111 => rfl

theorem step_stateAfter : Machine.step (stateAfter old s) = mapNext (stateAfter old) (Machine.step s) := by
  cases hin : s.inputs with
  | nil =>
    by_cases hl : Legal s.cfg
    · rw [step_nil hin hl, step_nil (s := stateAfter old s) hin hl, mapNext]
    · rw [step_nil_illegal hin hl, step_nil_illegal (s := stateAfter old s) hin hl, mapNext]
  | cons w rest =>
    rw [step_cons hin, step_cons (s := stateAfter old s) hin]
    exact exec_stateAfter old { s with inputs := rest } (decode w)

theorem run_stateAfter (k : Nat) : run k (stateAfter old s) = mapNext (stateAfter old) (run k s) := by
  induction k generalizing s with
  | zero => rfl
  | succ k ih =>
    rw [run_succ, run_succ, step_stateAfter]
    cases Machine.step s with
    | next t => exact ih t
    | fault _ | refused _ => rfl

end

/-- The state a restart ends in with an empty history; it is made of the configuration and the inputs to come only. -/
def restarted (cfg : Config) (inputs : List StepInput) : State :=
  { cfg := cfg, ctl := Control.afterRestart cfg, out := Outputs.quiet, inputs := inputs }

/-- RESET keeps of the past the history only (R85). -/
theorem exec_reset_eq_restarted {s t : State} (h : exec .reset s = .next t) :
    t = stateAfter s.out.history (restarted s.cfg s.inputs) := by
  obtain ⟨hl, -⟩ := exec_next h
  obtain ⟨b, hb⟩ := build_completes hl.1 hl.2
  cases (exec_reset_build hl hb).symm.trans h
  simp [stateAfter, outputsAfter, restarted, Control.afterRestart, hb, State.toIdle, Outputs.quiet, Outputs.release]

/-- Settles O41: both restarts end in the same restarted state behind their own pasts, and a run of it does the same behind
either. -/
theorem runsAfterRestartForgetThePast : Obligations.RunsAfterRestartForgetThePast := by
  intro s₁ s₂ t₁ t₂ hcfg hin h₁ h₂ k u₁ hrun
  rw [exec_reset_eq_restarted h₁, run_stateAfter] at hrun
  obtain ⟨u, hu, rfl⟩ := mapNext_eq_next hrun
  refine ⟨stateAfter s₂.out.history u, u.out.history, ?_, rfl, rfl, rfl, rfl, rfl⟩
  rw [exec_reset_eq_restarted h₂, run_stateAfter, ← hcfg, ← hin, hu, mapNext]

end Sys2Proof.Proofs
end

section
/-! PROOFS. Refusals and faults: which outcome each condition without a meaning has, for commands (R74, R90), for steps of
an illegal configuration (R52, R93) and for the observation port (R20, R22, R29). -/

namespace Sys2Proof.Proofs

open Sys2Proof.Machine Sys2Proof.Laws

/-! The phases that refuse. -/

theorem exec_uninit {i : Instr} {s : State} (hi : i ≠ .reset) (hw : i.wellFormed = true) (hl : Legal s.cfg)
    (hc : s.ctl = .uninit) : exec i s = .refused .uninitialised := by
  obtain ⟨effect, heffect⟩ := exec_eq_whenIdle hi hw s
  exact heffect.trans (whenIdle_uninit hl hc effect)

theorem exec_busy {i : Instr} {s : State} (hi : i ≠ .reset) (hw : i.wellFormed = true) (hl : Legal s.cfg)
    (hc : s.ctl = .busy) : exec i s = .refused .busyOverrun := by
  obtain ⟨effect, heffect⟩ := exec_eq_whenIdle hi hw s
  exact heffect.trans (whenIdle_busy hl hc effect)

/-- The `busy` output is 0 in `IDLE` (R20). -/
theorem obsBusy_eq_false_of_idle {s : State} (h : s.phase = .idle) : obsBusy s = false := by
  rw [obsBusy, h]
  rfl

/-- Settles O23: the gate refuses in `BUSY`, and RESET completes in `IDLE`. -/
theorem busyRefusesEveryCommandButReset : Obligations.BusyRefusesEveryCommandButReset := by
  intro s hl hphase
  obtain ⟨t, ht, hidle⟩ := exec_reset_completes hl
  exact ⟨beq_iff_eq.2 hphase, fun i hi hw => exec_busy hi hw hl ((phase_eq_busy_iff s).1 hphase), t, ht,
    obsBusy_eq_false_of_idle hidle⟩

/-! Faults. -/

/-- A command that faults is an assigned one in a legal idle block. -/
theorem exec_fault_idle {i : Instr} {s : State} {f : Fault} (h : exec i s = .fault f) :
    i.wellFormed = true ∧ Legal s.cfg ∧ ∃ r, s.ctl = .idle r := by
  cases hw : i.wellFormed with
  | false => rw [exec_reserved hw] at h; cases h
  | true =>
    refine ⟨rfl, ?_⟩
    by_cases hi : i = .reset
    · subst hi
      by_cases hl : Legal s.cfg
      · obtain ⟨t, ht, -⟩ := exec_reset_completes hl
        cases ht.symm.trans h
      · cases (exec_illegal hw hl).symm.trans h
    · obtain ⟨effect, heffect⟩ := exec_eq_whenIdle hi hw s
      obtain ⟨hl, r, hc, -⟩ := whenIdle_fault (heffect.symm.trans h)
      exact ⟨hl, r, hc⟩

/-- The one fault of the block (log entry 10). -/
theorem exec_eq_fault_iff {i : Instr} {s : State} {f : Fault} :
    exec i s = .fault f ↔
      i = .tick ∧ Legal s.cfg ∧ ∃ r, s.ctl = .idle r ∧ slots s.cfg.n ≤ r.cnt ∧ f = .slotOutOfRange r.cnt := by
  constructor
  · intro h
    obtain ⟨hw, hl, r, hc⟩ := exec_fault_idle h
    obtain ⟨t, ht⟩ | ⟨hi, hcnt, hfault⟩ := exec_idle_cases hl hc hw
    · cases ht.symm.trans h
    · cases hfault.symm.trans h
      exact ⟨hi, hl, r, hc, hcnt, rfl⟩
  · rintro ⟨rfl, hl, r, hc, hcnt, rfl⟩
    exact exec_tick_out_of_range hl hc hcnt

/-- The counter of a good state is a slot, so no command faults there (R13, R29). -/
theorem exec_ne_fault {s : State} (hs : s.Inv) (i : Instr) (f : Fault) : exec i s ≠ .fault f := fun h => by
  obtain ⟨-, -, r, hc, hcnt, -⟩ := exec_eq_fault_iff.1 h
  exact (hs.regs r hc).cnt_lt.not_ge hcnt

/-- Settles O39: a step is a command or nothing, and a command's only fault needs a counter that is no slot. -/
theorem noStepFaultsInAGoodState : Obligations.NoStepFaultsInAGoodState := by
  refine ⟨fun s hs f => ?_, fun i s f => exec_eq_fault_iff⟩
  cases hin : s.inputs with
  | nil => rw [step_nil hin hs.legal]; exact nofun
  | cons w rest => rw [step_cons hin]; exact exec_ne_fault (inv_withInputs hs rest) (decode w) f

/-! Conditions without a meaning. -/

/-- BUILD from zero with `N ≥ 2` is the divergence, and leaves everything but the phase (R56, log entry 8). -/
theorem exec_build_zero {s : State} {r : Regs} (hl : Legal s.cfg) (hc : s.ctl = .idle r) (hr : r.lfsr = 0#16)
    (hn : 2 ≤ s.cfg.n) : exec .build s = .next { s with ctl := .busy } := by
  have hnone : build s.cfg.n r.lfsr = none := hr ▸ build_zero_eq_none hn
  exact (exec_build_idle hl hc).trans (runBuild_none hnone)

/-- A window-end TICK whose lookup is done and whose rebuild starts from zero with `N ≥ 2` is the divergence, and keeps
the outputs of the lookup (R56, log entry 8). -/
theorem tickAdvance_zero {s : State} {r : Regs} {o : Outputs} (hend : r.cnt + 1 = slots s.cfg.n) (hr : r.lfsr = 0#16)
    (hn : 2 ≤ s.cfg.n) : tickAdvance s r o = .next (s.toBusy o) := by
  have hnone : build s.cfg.n r.lfsr = none := hr ▸ build_zero_eq_none hn
  exact (if_pos hend).trans (runBuild_none hnone)

/-- Settles O42: the lookup's outputs, then the divergence. -/
theorem windowEndTickFromZeroKeepsItsPulseAndStaysBusy : Obligations.WindowEndTickFromZeroKeepsItsPulseAndStaysBusy := by
  intro s r hit hl hc hend ho hbit hr hn
  have hcnt : r.cnt < slots s.cfg.n := Nat.lt_of_succ_le hend.le
  exact (exec_tick_of_bit hl hc hcnt ho hbit).trans (tickAdvance_zero hend hr hn)

/-- A window-end TICK from zero with `N ≥ 2` ends `BUSY`, whatever the drive signals were. -/
theorem exec_tick_zero_busy {s : State} {r : Regs} (hl : Legal s.cfg) (hc : s.ctl = .idle r)
    (hend : r.cnt + 1 = slots s.cfg.n) (hr : r.lfsr = 0#16) (hn : 2 ≤ s.cfg.n) :
    ∃ t, exec .tick s = .next t ∧ t.phase = .busy := by
  obtain ⟨hge, -⟩ | ⟨-, -, hlookup⟩ | ⟨-, -, hlookup⟩ := tickLookup_cases s r
  · omega
  · exact ⟨_, (exec_tick_idle hl hc hlookup).trans (tickAdvance_zero hend hr hn), rfl⟩
  · exact ⟨_, (exec_tick_idle hl hc hlookup).trans (tickAdvance_zero hend hr hn), rfl⟩

/-- RESET, and every assigned command in an idle block, is not refused in a legal configuration. -/
theorem exec_ne_refused {i : Instr} {s : State} (hl : Legal s.cfg) (hw : i.wellFormed = true)
    (h : i = .reset ∨ s.phase = .idle) (why : Refusal) : exec i s ≠ .refused why := by
  obtain rfl | hidle := h
  · obtain ⟨t, ht, -⟩ := exec_reset_completes hl
    rw [ht]
    exact nofun
  · obtain ⟨r, hc⟩ := (phase_eq_idle_iff s).1 hidle
    obtain ⟨t, ht⟩ | ⟨-, -, hfault⟩ := exec_idle_cases hl hc hw
    · rw [ht]
      exact nofun
    · rw [hfault]
      exact nofun

/-- Settles O29: one lemma for each condition. -/
theorem eachMeaninglessConditionHasItsOwnOutcome : Obligations.EachMeaninglessConditionHasItsOwnOutcome :=
  ⟨fun s _ hw => exec_reserved hw s, fun _ _ hw hl => exec_illegal hw hl,
    fun s _ hw hi hl hphase => exec_uninit hi hw hl ((phase_eq_uninit_iff s).1 hphase),
    fun s _ hw hi hl hphase => exec_busy hi hw hl ((phase_eq_busy_iff s).1 hphase),
    fun _ _ hl hc hr hn => ⟨⟨_, exec_build_zero hl hc hr hn, rfl⟩, fun hend => exec_tick_zero_busy hl hc hend hr hn⟩,
    fun _ _ why hl hw h => exec_ne_refused hl hw h why⟩

/-! Illegal configurations. -/

theorem mem_legalLengths_iff {n : Nat} : n ∈ legalLengths ↔ ∃ k ≤ 14, n = 2 ^ k :=
  ⟨legalLengths_pow, fun ⟨k, hk, hn⟩ => List.mem_map.2 ⟨k, List.mem_range.2 (Nat.lt_succ_of_le hk), hn.symm⟩⟩

/-- A command in an illegal configuration is refused, as illegal or as reserved. -/
theorem exec_refused_of_illegal {s : State} (hl : ¬Legal s.cfg) (i : Instr) : ∃ why, exec i s = .refused why := by
  cases hw : i.wellFormed with
  | true => exact ⟨_, exec_illegal hw hl⟩
  | false => exact ⟨_, exec_reserved hw s⟩

/-- Settles O30: the list of legal lengths is the powers of two up to `2^14`, and a step is a command or nothing. -/
theorem everyStepOfAnIllegalConfigurationIsRefused : Obligations.EveryStepOfAnIllegalConfigurationIsRefused := by
  refine ⟨fun cfg => and_congr_left' mem_legalLengths_iff, fun n hn => ?_, fun s hl => ?_⟩
  · have hslots : slots n = 2 ^ counterWidth n := four_mul_eq_two_pow hn
    exact ⟨rfl, hslots, congrArg (· - 1) hslots⟩
  · cases hin : s.inputs with
    | nil => exact ⟨_, step_nil_illegal hin hl⟩
    | cons w rest => exact step_cons hin ▸ exec_refused_of_illegal (s := { s with inputs := rest }) hl (decode w)

/-! The observation port. -/

theorem observe_illegal {α : Type} {s : State} (hl : ¬Legal s.cfg) (f : Regs → α) :
    observe s f = .error .illegalConfig := if_neg hl

theorem observe_busy {α : Type} {s : State} (hl : Legal s.cfg) (hc : s.ctl = .busy) (f : Regs → α) :
    observe s f = .error .busyOverrun := by
  unfold observe; rw [if_pos hl]; simp only [hc]

/-- Settles O43: every read goes through `observe`, which ranks the three grounds. -/
theorem observationPortRefusalsAreRanked : Obligations.ObservationPortRefusalsAreRanked := by
  intro s why hground
  have refused {α : Type} (f : Regs → α) : observe s f = .error why := by
    obtain ⟨hl, rfl⟩ | ⟨hl, hphase, rfl⟩ | ⟨hl, hphase, rfl⟩ := hground
    · exact observe_illegal hl f
    · exact observe_uninit hl ((phase_eq_uninit_iff s).1 hphase) f
    · exact observe_busy hl ((phase_eq_busy_iff s).1 hphase) f
  exact ⟨refused _, refused _, refused _, refused _, obsSeqByte_error (refused Regs.seq)⟩

end Sys2Proof.Proofs
end

section
/-! PROOFS. BUILD and PULSE as commands: the bound of the build and its result under larger bounds (R55), the build from
zero (R56), the command BUILD (R58) and the command PULSE (R70). -/

namespace Sys2Proof.Proofs

open Sys2Proof.Machine Sys2Proof.Laws

/-! The build loop under any bound on its draws. -/

theorem buildLoop_eq_loopAfter (n : Nat) (l : Word) (fuel : Nat) :
    buildLoop n fuel 0 0 Memory.cleared l = loopAfter n l fuel 0 := by
  simp [loopAfter, resultAfter, candidatesOf, Memory.cleared]

/-- Every bound that allows the draws needed gives the same result. -/
theorem FirstFull.buildLoop_eq_some {n : Nat} {l : Word} {D : Nat} (h : FirstFull n l D) {fuel : Nat} (hfuel : D ≤ fuel) :
    buildLoop n fuel 0 0 Memory.cleared l = some (resultAfter n l D) := by
  obtain ⟨hfull, hbelow⟩ := h
  rw [buildLoop_eq_loopAfter, ← Nat.sub_add_cancel hfuel, loopAfter_zero_of_forall_lt hbelow]
  exact buildLoop_done hfull.not_lt

/-- Settles O9: the build completes, its draws are the first that reach `N` slots, so they are within the generator's
period and every bound from there on gives the same. -/
theorem buildFromNonzeroCompletesWithin65535Draws : Obligations.BuildFromNonzeroCompletesWithin65535Draws := by
  intro n hn l hl
  obtain ⟨b, hb⟩ := build_completes hn hl
  obtain ⟨hfirst, hresult⟩ := build_eq_some_iff.1 hb
  refine ⟨b, hb, hfirst.le_buildFuel, fun fuel hfuel => ?_⟩
  rw [hresult]
  exact hfirst.buildLoop_eq_some hfuel

/-! The build from zero. -/

/-- From zero with `N ≥ 2` the loop runs out of draws under every bound (R56). -/
theorem buildLoop_zero_eq_none {n : Nat} (hn : 2 ≤ n) (fuel : Nat) :
    buildLoop n fuel 0 0 Memory.cleared 0#16 = none := by
  have hnever := build_eq_none_iff.1 (build_zero_eq_none hn)
  rw [buildLoop_eq_loopAfter, ← Nat.zero_add fuel, loopAfter_zero_of_forall_lt fun D _ => hnever D]
  exact buildLoop_out_of_fuel (hnever fuel)

/-- V-B15: with `N = 1` the one draw from zero sets slot 0. -/
theorem build_one_zero : build 1 0#16 = some { seq := [0], lfsr := 0#16, draws := 1 } := by
  decide

/-- Every command but RESET is refused in a legal `BUSY` block, an assigned one as an overrun. -/
theorem exec_busy_refused {s : State} (hl : Legal s.cfg) (hc : s.ctl = .busy) {i : Instr} (hi : i ≠ .reset) :
    ∃ why, exec i s = .refused why := by
  cases hw : i.wellFormed with
  | true => exact ⟨_, exec_busy hi hw hl hc⟩
  | false => exact ⟨_, exec_reserved hw s⟩

/-- Settles O10: zero is the fixed point of the generator and its candidate is slot 0; a good state's generator is not
zero. -/
theorem zeroStateBuildDivergesUnlessNIsOne : Obligations.ZeroStateBuildDivergesUnlessNIsOne := by
  refine ⟨Function.iterate_fixed next_zero, fun n => Nat.zero_and _, build_one_zero,
    fun n fuel hn => buildLoop_zero_eq_none hn fuel, fun s r => exec_build_zero, fun s hl hc => ?_,
    fun s t hs hphase hstep => ?_⟩
  · exact ⟨fun hin => step_nil hin hl, fun i hi => exec_busy_refused hl hc hi, exec_reset_completes hl⟩
  · obtain hidle | rfl := step_phase_idle hs hstep
    · rw [hidle]
      exact nofun
    · exact hphase

/-! The command BUILD. -/

/-- With `N = 1` a build takes one draw: the first draw's candidate is the one slot wanted. -/
theorem FirstFull.eq_one {l : Word} {D : Nat} (h : FirstFull 1 l D) : D = 1 := by
  have hpos := h.pos Nat.one_pos
  obtain ⟨-, hbelow⟩ := h
  by_contra hne
  have hone : (candidatesOf 1 l 1).card = 1 := by simp [candidatesOf]
  exact (hbelow 1 (by omega)).ne hone

/-- Settles O11: the build completes, and the command writes its result. -/
theorem buildCommandReplacesSeqAndLfsrOnly : Obligations.BuildCommandReplacesSeqAndLfsrOnly := by
  refine ⟨decode_encode .build, fun s r hl hc hr => ?_, build_four_one⟩
  obtain ⟨b, hb⟩ := build_completes_of_ne_zero_or_one hl.1 hr
  refine ⟨b, hb, fun hn => ?_, exec_build_some hl hc hb⟩
  rw [hn] at hb
  exact (build_eq_some_iff.1 hb).1.eq_one

/-! The command PULSE. -/

/-- PULSE in a legal idle block flips `POL` and appends the event of the terminal it selected (R65, R70). -/
theorem exec_pulse_idle {s : State} {r : Regs} (hl : Legal s.cfg) (hc : s.ctl = .idle r) (ho : s.out.Released) :
    exec .pulse s = .next { s with
      ctl := .idle { r with pol := !r.pol }
      out := { s.out with history := s.out.history ++ [terminalOf r.pol] } } := by
  refine (whenIdle_idle hl hc _).trans ?_
  rw [pulse_snd, outputs_pulse_of_released ho]
  rfl

/-- The flipped polarity selects the other terminal. -/
theorem terminalOf_not (pol : Bool) : terminalOf (!pol) = if pol then .A else .B := by
  cases pol <;> rfl

/-- Settles O16: the command twice; the second flip undoes the first. -/
theorem pulseCommandEmitsOneEvent : Obligations.PulseCommandEmitsOneEvent := by
  refine ⟨decode_encode .pulse, fun s r hl hc ho => ⟨_, exec_pulse_idle hl hc ho, rfl, ?_⟩⟩
  refine Eq.trans (exec_pulse_idle (r := { r with pol := !r.pol }) hl rfl ho) ?_
  simp only [Bool.not_not, terminalOf_not, List.append_assoc, List.cons_append, List.nil_append, hc]
  rfl

end Sys2Proof.Proofs
end

section
/-! PROOFS. Who writes which element: the drive signals (R17), `LFSR` (R12) and `SEQ` (R15), and that no command writes the
configuration (R19) or the inputs to come (R33). -/

namespace Sys2Proof.Proofs

open Sys2Proof.Machine Sys2Proof.Laws

/-- A pulse leaves a drive signal at 0, or at what it was. -/
theorem outputs_pulse_coils (o : Outputs) (t : Terminal) :
    ((o.pulse t).coilA = true → o.coilA = true) ∧ ((o.pulse t).coilB = true → o.coilB = true) := by
  cases t with
  | A => exact ⟨nofun, id⟩
  | B => exact ⟨id, nofun⟩

/-- No command from idle leaves a drive signal at 1 that was 0 (R17). -/
theorem exec_coils {i : Instr} {s t : State} {r : Regs} (hc : s.ctl = .idle r) (h : exec i s = .next t) :
    (t.out.coilA = true → s.out.coilA = true) ∧ (t.out.coilB = true → s.out.coilB = true) := by
  by_cases hi : i = .reset
  · subst hi
    obtain ⟨-, ⟨hbuild⟩⟩ := exec_next h
    rw [(runBuild_out_inputs hbuild).1]
    exact ⟨nofun, nofun⟩
  · obtain ⟨_, rfl | rfl, hout, -⟩ := exec_pulses_once_or_never hi h hc <;> rw [hout]
    · exact outputs_pulse_coils s.out _
    · exact ⟨id, id⟩

/-- A TICK below the window end leaves `LFSR` and `SEQ` as they are. -/
theorem exec_tick_keeps_lfsr_seq {s t : State} {r q : Regs} (hc : s.ctl = .idle r) (h : exec .tick s = .next t)
    (hq : t.ctl = .idle q) (hne : r.cnt + 1 ≠ slots s.cfg.n) : q.lfsr = r.lfsr ∧ q.seq = r.seq := by
  obtain ⟨-, hran⟩ := exec_next h
  cases hran with
  | tick hc' hlookup hadvance =>
    cases hc.symm.trans hc'
    obtain rfl | rfl := tickLookup_some hlookup <;> cases (if_neg hne).symm.trans hadvance <;> cases hq <;>
      exact ⟨rfl, rfl⟩

/-- The commands that may write `SEQ` (R15), each of which writes `LFSR` too. -/
def WritesSeq (i : Instr) (s : State) (r : Regs) : Prop :=
  i = .build ∨ i = .reset ∨ (i = .tick ∧ r.cnt + 1 = slots s.cfg.n)

/-- A command that may not write `SEQ` leaves it, and `LFSR` too unless it is STEP (R12, R15). -/
theorem exec_keeps_lfsr_seq {i : Instr} {s t : State} {r q : Regs} (hc : s.ctl = .idle r) (h : exec i s = .next t)
    (hq : t.ctl = .idle q) (hi : ¬WritesSeq i s r) : (i = .step ∨ q.lfsr = r.lfsr) ∧ q.seq = r.seq := by
  have ⟨_, hran⟩ := exec_next h
  cases hran with
  | reset => exact absurd (.inr (.inl rfl)) hi
  | nop hc' | pulse hc' =>
    cases hc.symm.trans hc'
    cases hq
    exact ⟨.inr rfl, rfl⟩
  | step hc' =>
    cases hc.symm.trans hc'
    cases hq
    exact ⟨.inl rfl, rfl⟩
  | build => exact absurd (.inl rfl) hi
  | tick =>
    obtain ⟨hlfsr, hseq⟩ := exec_tick_keeps_lfsr_seq hc h hq fun hend => hi (.inr (.inr ⟨rfl, hend⟩))
    exact ⟨.inr hlfsr, hseq⟩

/-- Settles O35: each command's writes, and that it leaves the rest. -/
theorem eachElementIsWrittenOnlyByItsOwners : Obligations.EachElementIsWrittenOnlyByItsOwners := by
  refine ⟨fun i s t h => ⟨exec_cfg h, exec_inputs h⟩, fun i s t r q hc h => ?_⟩
  obtain ⟨ha, hb⟩ := exec_coils hc h
  refine ⟨ha, hb, fun hq => ?_⟩
  by_cases hi : WritesSeq i s r
  · exact ⟨fun _ => .inr hi, fun _ => hi⟩
  · obtain ⟨hlfsr, hseq⟩ := exec_keeps_lfsr_seq hc h hq hi
    exact ⟨fun hne => .inl (hlfsr.resolve_right hne), fun hne => absurd hseq hne⟩

end Sys2Proof.Proofs
end

section
/-! PROOFS. The encodings: the command table row by row (R37, R42), and the assembler and its text (R42). -/

namespace Sys2Proof.Proofs

open Sys2Proof.Machine Sys2Proof.Laws

/-! The table. -/

/-- Each of the 16 words matches the one row that the decoder reads. -/
theorem matching_rows_eq_decode : ∀ w : StepInput,
    (opcodeRows.filter fun row => row.matchesWord w).map OpcodeRow.instr = [decode w] := by decide

/-- Settles O26: the codes undo each other, and a number outside `IN4` is no word. -/
theorem decodeAndEncodeAgreeWithTheTable : Obligations.DecodeAndEncodeAgreeWithTheTable :=
  ⟨decode_encode, matching_rows_eq_decode, fun _ => encode_decode, fun _ hw => if_neg hw.not_gt⟩

/-! Assembling. -/

theorem assemble_append (n : Nat) (p q : List AsmLine) : assemble n (p ++ q) = assemble n p ++ assemble n q := by
  rw [assemble, List.flatMap_append, List.map_append, ← assemble, ← assemble]

theorem assemble_singleton (n : Nat) (l : AsmLine) : assemble n [l] = (l.expand n).map encode := by
  rw [assemble, List.flatMap_singleton]

/-- The assembled words decode to the commands. -/
theorem map_decode_assemble (n : Nat) (program : List AsmLine) :
    (assemble n program).map decode = program.flatMap (AsmLine.expand n) := by
  rw [assemble, List.map_map, Function.comp_def]
  simp only [decode_encode, List.map_id']

/-- A step input's digit reads back as the step input. -/
theorem hexValue_hexDigit : ∀ w : StepInput, hexValue (hexDigit w) = some w := by decide

/-- The digits of a program read back as its words. -/
theorem map_hexValue_encoding (n : Nat) (program : List AsmLine) :
    (encoding n program).map hexValue = (assemble n program).map some := by
  rw [encoding, List.map_map]
  exact List.map_congr_left fun w _ => hexValue_hexDigit w

/-! Reading a line. -/

/-- Upper case neither makes nor removes a comment sign. -/
theorem toUpper_eq_semicolon_iff (c : Char) : c.toUpper = ';' ↔ c = ';' := by
  by_cases hlower : c.isLower
  · refine ⟨fun h => ?_, fun h => ?_⟩
    · have hupper : c.toUpper.isUpper = true := by simp [Char.isAlpha, hlower]
      rw [h] at hupper
      cases hupper
    · rw [h] at hlower
      cases hlower
  · rw [Char.toUpper_eq_of_not_isLower hlower]

/-- A line is cut at the same place in upper case. -/
theorem dropComment_map_toUpper (line : List Char) :
    dropComment (line.map Char.toUpper) = (dropComment line).map Char.toUpper := by
  rw [dropComment, List.takeWhile_map, dropComment]
  congr 2
  funext c
  rw [Bool.eq_iff_iff]
  simp [toUpper_eq_semicolon_iff]

/-- A line is read the same in upper case. -/
theorem parseLine_map_toUpper (line : List Char) : parseLine (line.map Char.toUpper) = parseLine line := by
  rw [parseLine, parseLine, dropComment_map_toUpper, List.map_map]
  simp [Function.comp_def]

theorem dropComment_append {line : List Char} (h : ';' ∉ line) (rest : List Char) :
    dropComment (line ++ rest) = line ++ dropComment rest :=
  List.takeWhile_append_of_pos fun _ hc => bne_iff_ne.2 fun hsemi => h (hsemi ▸ hc)

/-- What follows a `;` is not read. -/
theorem parseLine_comment {line : List Char} (h : ';' ∉ line) (comment : List Char) :
    parseLine (line ++ ';' :: comment) = parseLine line := by
  have hcut : dropComment (line ++ ';' :: comment) = dropComment line := by
    rw [dropComment_append h, ← List.append_nil line, dropComment_append (by simpa using h)]
    simp [dropComment]
  rw [parseLine, hcut, parseLine]

/-- Settles O27: a line's words, their digits, and that reading is done on the upper-case text before the comment. -/
theorem programsRoundTripThroughTheirEncoding : Obligations.ProgramsRoundTripThroughTheirEncoding := by
  refine ⟨fun n => ⟨rfl, fun i => rfl, fun k => ?_, ?_, fun k => ?_, assemble_append n⟩,
    fun n program => ⟨map_decode_assemble n program, map_hexValue_encoding n program⟩, fun w hw => ?_, ?_,
    parseLine_map_toUpper, fun line comment h => parseLine_comment h comment⟩
  · exact (assemble_singleton n _).trans List.map_replicate
  · exact (assemble_singleton n _).trans List.map_replicate
  · exact (assemble_singleton n _).trans List.map_replicate
  · rw [hexValue_hexDigit, Option.map_some, decode_of_rstBit hw]
  · decide +kernel

end Sys2Proof.Proofs
end
